-- ==== Sys2Proof/Word.lean ====
section
/-! DEFINITION. The byte and the 4-byte word of the codec block (20_memory.md R30, R37). -/

namespace Sys2Proof

/-- A byte of a buffer: 8 bits (20_memory.md R30). -/
abbrev Byte := BitVec 8

/-- A 32-bit unsigned quantity: a payload word, a parameter id, a packed timestamp, an interval
(20_memory.md R37, 30_encoding.md R54, R58). -/
abbrev Word := BitVec 32

end Sys2Proof
end

