-- ==== Sys2Proof/Config.lean ====
section
/-! DEFINITION. The fixed protocol constants (00_scope.md R4), the configuration record (R5), the
values this hardware takes, and the free values the spec leaves open. -/

namespace Sys2Proof

/-- The two dialects: 0 BINARY, 1 LEGACY (10_state.md R14). -/
inductive Dialect where
  | binary
  | legacy
  deriving DecidableEq, Repr

/-- What a field read past the end of its buffer does (00_scope.md R5, 93_implementation_defined.md
U3). -/
inductive ShortRead where
  | fault
  | availableBytes
  deriving DecidableEq, Repr

/-- The parameters of 00_scope.md R5 that the block's functions take. STATION_ID and DIALECT are
straps and stand in State. -/
structure Config where
  lenWordsShift : Nat
  sliceMargin : Nat
  shortRead : ShortRead
  rxbufMax : Nat
  convergenceBound : Nat
  whitespace : List Byte
  deriving DecidableEq, Repr

namespace Config

/-! ### Protocol constants (R4) -/

def stx : Byte := 0x02
def etx : Byte := 0x03
def eot : Byte := 0x04
def cr : Byte := 0x0D
def lf : Byte := 0x0A
def lenMax : Nat := 65535
def wordBytes : Nat := 4
def yearBase : Nat := 2000
def yearBits : Nat := 6
def floatKeyThreshold : Nat := 1000
def fixedWords : Nat := 4
def cmdGetId : Byte := 1
def cmdGetValues : Byte := 4
def cmdSetValue : Byte := 5
def cmdGetLogConfig : Byte := 6
def cmdGetLoggedData : Byte := 7
def paramOperatingState : Word := 4035
def legacyIdLimit : Nat := 100
def recTypeHeader : Byte := 1
def recTypeData : Byte := 0

/-- The first two characters of a legacy line, "ID" and "VI" (45_session.md R183; the ASCII codes
are the opcode table's). -/
def legacyIdText : List Byte := [0x49, 0x44]
def legacyViText : List Byte := [0x56, 0x49]

/-! ### Free values: opaque, so nothing can be proved of the value taken -/

/-- FREE VALUE (log entry 4): RXBUF_MAX is open, at least 65543 (92_eei_decisions.md D19). This is
what it exceeds that floor by. -/
opaque rxbufExtra : Nat

/-- FREE VALUE (log entry 5): CONVERGENCE_BOUND is open and positive (92_eei_decisions.md D30). This
is the number of polls beyond the first. -/
opaque pollExtra : Nat

/-- FREE VALUE (log entry 13): how a station id is written in a legacy line is not in the source
(91_not_in_source.md N16). -/
opaque stationIdFreeText : Byte → List Byte

/-- FREE VALUE (log entry 13): the VI parameter number of the legacy operating-state query is not in
the source (91_not_in_source.md N18); it has two decimal digits (45_session.md R183). -/
opaque voltageInputParam : Fin 100

/-- The text of a station id in a legacy line: any text without a line end, since the command is a
"newline-free command string" (30_encoding.md R60). -/
def stationIdText (station : Byte) : List Byte :=
  (stationIdFreeText station).filter fun c => c != cr && c != lf

/-- The configuration this hardware takes (00_scope.md R5, 92_eei_decisions.md section 8). -/
def hw : Config where
  lenWordsShift := 2
  sliceMargin := 1
  shortRead := .fault
  rxbufMax := rxbufExtra + 65543
  convergenceBound := pollExtra + 1
  whitespace := [0x09, 0x0A, 0x0B, 0x0C, 0x0D, 0x20]

end Config
end Sys2Proof
end

