-- ==== Sys2Proof/Syntax.lean ====
section
/-! DEFINITION. Instructions: one constructor per row of spec/opcode_table.json, with the values
their operands are (30_encoding.md R61, R64, 44_logged_data.md R146, 45_session.md R183). -/

namespace Sys2Proof

/-- A date and time: six non-negative integers (41_timestamp.md, before R87). -/
structure DateTime where
  year : Nat
  month : Nat
  day : Nat
  hour : Nat
  minute : Nat
  second : Nat
  deriving DecidableEq, Repr

/-- The eight errors (60_exceptions.md R201). -/
inductive Err where
  | connectionError
  | timeoutError
  | decodeError
  | rangeError
  | unsupportedOperation
  | unrecognizedState
  | convergenceTimeout
  | invalidArgument
  deriving DecidableEq, Repr

/-- The numeric codes of the errors (60_exceptions.md R201). -/
def Err.code : Err → Nat
  | .connectionError => 1
  | .timeoutError => 2
  | .decodeError => 3
  | .rangeError => 4
  | .unsupportedOperation => 5
  | .unrecognizedState => 6
  | .convergenceTimeout => 7
  | .invalidArgument => 8

/-- A result or an error (60_exceptions.md R200). -/
abbrev Result (α : Type) := Except Err α

/-- The instructions. The first eight are the operations of the block, OPSEL 0 to 7 (R64). The next
five are the wire commands, whole frames of one station (R61, R50). Then the two record types, the
micro-operations of LOG_DECODE, with the bytes of the record slice after its type byte (R56, R57).
Then the two legacy lines, with the station id as it is written in the line (R183). -/
inductive Instr where
  | checksum (bytes : List Byte)
  | tsDecode (raw : Word)
  | tsEncode (dtm : DateTime)
  | frameBuild (command : Byte) (parameterId : Word) (payload : List Byte)
  | frameRx
  | frameValidate (bytes : List Byte)
  | respDecode (response : List Byte)
  | logDecode (response : List Byte)
  | getId (station : Byte)
  | getValues (station : Byte) (ids : List Word)
  | setValue (station : Byte) (id value : Word)
  | getLogConfig (station : Byte)
  | getLoggedData (station : Byte) (start stop : Word)
  | recHeader (rest : List Byte)
  | recData (rest : List Byte)
  | legacyId (stationText : List Byte)
  | legacyVi (stationText : List Byte) (param : Nat)
  deriving DecidableEq, Repr

/-- What the host hands over beside OPSEL with `Issue(op, operands)` (00_scope.md R8). Each operation
takes the fields R64 gives it and ignores the others (log entry 19). -/
structure Operands where
  bytes : List Byte := []
  word : Word := 0
  command : Byte := 0
  dateTime : DateTime := ⟨0, 0, 0, 0, 0, 0⟩
  deriving DecidableEq, Repr

/-- An instruction as the machine meets it: an operation code with its operands, the bytes of a wire
command, or the bytes of a record slice. -/
inductive Presented where
  | op (opsel : BitVec 4) (operands : Operands)
  | command (bytes : List Byte)
  | record (bytes : List Byte)
  deriving DecidableEq, Repr

end Sys2Proof
end

