-- ==== Sys2Proof/Machine/Operands.lean ====
section
/-! DEFINITION. Every form in which an operation reads or delimits a byte buffer, and the byte order
(00_scope.md R7, 20_memory.md R32 to R37). -/

namespace Sys2Proof.Machine

/-- The unsigned big-endian integer of a byte sequence, its first byte most significant (R32). -/
def beNat (bytes : List Byte) : Nat :=
  bytes.foldl (fun acc b => acc * 256 + b.toNat) 0

/-- `BE16(v)` of R7: the two low-order bytes of v, most significant first. -/
def be16 (v : Nat) : List Byte := [BitVec.ofNat 8 (v / 256), BitVec.ofNat 8 v]

/-- `BE32(v)` of R7: the four bytes of v, most significant first (41_timestamp.md R89). -/
def be32 (v : Word) : List Byte :=
  [v.extractLsb' 24 8, v.extractLsb' 16 8, v.extractLsb' 8 8, v.extractLsb' 0 8]

/-- `BE32` of each word in turn (45_session.md R173). -/
def be32s (ws : List Word) : List Byte := ws.flatMap be32

/-- `Slice(B, a, b)` of R7 and R35: it only delimits, is clipped at the end of the buffer, and is
empty when b ≤ a. -/
def slice (buf : List Byte) (a b : Nat) : List Byte := (buf.take b).drop a

/-- `B[i]` of R7: outside the buffer it is a short read, an error under either value of SHORT_READ
(R34, 93_implementation_defined.md U3). -/
def byteAt (buf : List Byte) (i : Nat) : Result Byte :=
  match buf[i]? with
  | some b => .ok b
  | none => .error .decodeError

/-- `MemRead(B, off, n)` of R7 under SHORT_READ = FAULT (R34), for any offset (R36). -/
def memReadFull (buf : List Byte) (off n : Nat) : Result Nat :=
  if off + n ≤ buf.length then .ok (beNat (slice buf off (off + n))) else .error .decodeError

/-- `MemRead(B, off, n)`: a short read is an error, or, under AVAILABLE_BYTES, the integer of the
bytes that exist (R34, 93_implementation_defined.md U3). -/
def memRead (cfg : Config) (buf : List Byte) (off n : Nat) : Result Nat :=
  match cfg.shortRead with
  | .fault => memReadFull buf off n
  | .availableBytes => .ok (beNat (slice buf off (off + n)))

/-- `sext_32(v)` of R6: the two's complement value of a 32-bit pattern (43_response_decoder.md
R133). -/
def sext32 (v : Nat) : Int := (BitVec.ofNat 32 v).toInt

end Sys2Proof.Machine
end

