-- ==== Sys2Proof/Machine/ChecksumCodec.lean ====
section
/-! DEFINITION. The checksum function (40_checksum.md R80, R82), used by CHECKSUM, by FRAME_BUILD and
by FRAME_VALIDATE. -/

namespace Sys2Proof.Machine

/-- `xor_all(S)`: the exclusive or of all bytes, from accumulator 0 (R80). -/
def xorAll (bytes : List Byte) : Byte := bytes.foldl (fun acc b => acc ^^^ b) 0

end Sys2Proof.Machine
end

