-- ==== Sys2Proof/Machine/FrameCodec.lean ====
section
/-! DEFINITION. The binary frame and the end of a response (30_encoding.md R50 to R54, 42_frame.md
R100 to R112): the functions of FRAME_BUILD, FRAME_VALIDATE and of FRAME_RX's terminator. -/

namespace Sys2Proof.Machine

/-- The bytes of a frame before its checksum (R50). -/
def frameHead (station command : Byte) (msgData : List Byte) : List Byte :=
  [Config.stx, station, command, Config.etx] ++ be16 msgData.length ++ msgData

/-- A frame: head, checksum of the head, EOT (R50, R53). -/
def frameBytes (station command : Byte) (msgData : List Byte) : List Byte :=
  frameHead station command msgData ++ [xorAll (frameHead station command msgData), Config.eot]

/-- msg_data of a request: the parameter id when it is greater than 0, then the payload (R54). -/
def requestData (parameterId : Word) (payload : List Byte) : List Byte :=
  if 0 < parameterId.toNat then be32 parameterId ++ payload else payload

/-- The function of FRAME_BUILD for a station id (R100, R101, R102). -/
def frameBuild (station command : Byte) (parameterId : Word) (payload : List Byte) :
    Result (List Byte) :=
  if Config.lenMax < (requestData parameterId payload).length then .error .rangeError
  else .ok (frameBytes station command (requestData parameterId payload))

/-- The four conditions of R111 on a received frame. -/
def wellFormedFrame (frame : List Byte) : Bool :=
  let n := frame.length
  decide (8 ≤ n) &&
  (frame[0]? == some Config.stx && frame[3]? == some Config.etx &&
    frame[n - 1]? == some Config.eot) &&
  beNat (slice frame 4 6) == n - 8 &&
  frame[n - 2]? == some (xorAll (slice frame 0 (n - 2)))

/-- The three variable parts of a frame (42_frame.md R112). -/
structure FrameParts where
  station : Byte
  command : Byte
  msgData : List Byte
  deriving DecidableEq, Repr

/-- The function of FRAME_VALIDATE (R111, R112). -/
def frameValidate (frame : List Byte) : Result FrameParts :=
  if wellFormedFrame frame then
    .ok ⟨frame.getD 1 0, frame.getD 2 0, slice frame 6 (frame.length - 2)⟩
  else .error .decodeError

/-- The terminator test of FRAME_RX, on the end of the accumulated buffer (R105, R106). -/
def terminated (dialect : Dialect) (buf : List Byte) : Bool :=
  match dialect with
  | .binary => buf.getLast? == some Config.eot
  | .legacy => [Config.cr, Config.lf].isSuffixOf buf ||
      [Config.cr, Config.lf, Config.lf].isSuffixOf buf

/-- rtrim of R106: white space removed from the end of the buffer. -/
def rtrim (cfg : Config) (buf : List Byte) : List Byte :=
  (buf.reverse.dropWhile fun b => cfg.whitespace.contains b).reverse

/-- What FRAME_RX delivers of a terminated buffer: all of it (R105), or the trimmed line (R106). -/
def delivered (cfg : Config) (dialect : Dialect) (buf : List Byte) : List Byte :=
  match dialect with
  | .binary => buf
  | .legacy => rtrim cfg buf

end Sys2Proof.Machine
end

