-- ==== Sys2Proof/WellFormed.lean ====
section
/-! DEFINITION. Which instructions have an encoding: the limits the spec sets on operands. -/

namespace Sys2Proof

/-- A legacy line is "newline-free" before its CR (30_encoding.md R60). -/
def newlineFree (text : List Byte) : Bool :=
  text.all fun c => c != Config.cr && c != Config.lf

/-- The ids of GET_VALUES fit the 16-bit LENGTH (30_encoding.md R52, 42_frame.md R101); the text of a
legacy line is newline-free and a VI parameter has two digits (45_session.md R183). Every other
operand takes every value. -/
def Instr.wf : Instr → Bool
  | .getValues _ ids => decide (Config.wordBytes * ids.length ≤ Config.lenMax)
  | .legacyId text => newlineFree text
  | .legacyVi text param => newlineFree text && decide (param < Config.legacyIdLimit)
  | .checksum _ | .tsDecode _ | .tsEncode _ | .frameBuild _ _ _ | .frameRx | .frameValidate _
  | .respDecode _ | .logDecode _ | .getId _ | .setValue _ _ _ | .getLogConfig _
  | .getLoggedData _ _ _ | .recHeader _ | .recData _ => true

end Sys2Proof
end

