-- ==== Sys2Proof/Decode.lean ====
section
/-! DEFINITION. The decoder of the four code spaces, total and rejecting by name, the encoder, and
the opcode table's words (30_encoding.md R50, R56, R61, R64, 44_logged_data.md R146, 45_session.md
R183). -/

namespace Sys2Proof

/-- Why what was presented is no instruction. -/
inductive Reject where
  /-- OPSEL 8 to 15 (30_encoding.md R64). -/
  | reservedOpsel (opsel : BitVec 4)
  /-- A record type other than 0 and 1, or an empty slice (44_logged_data.md R154, R155). -/
  | recordType
  /-- The bytes begin neither a frame nor a legacy line of the table. -/
  | unknownCommand
  /-- The bytes begin with STX and are no well-formed frame (42_frame.md R111). -/
  | malformedFrame
  /-- A frame whose command byte has no row (30_encoding.md R62). -/
  | commandCode (code : Byte)
  /-- A frame whose msg_data does not fit its command (30_encoding.md R61). -/
  | msgData (code : Byte)
  /-- A legacy line without its CR, with a line end inside, or without its two digits. -/
  | malformedLine
  deriving DecidableEq, Repr

/-- The operation of an OPSEL with the operands it takes (R64). -/
def decodeOp (opsel : BitVec 4) (o : Operands) : Except Reject Instr :=
  match opsel.toNat with
  | 0 => .ok (.checksum o.bytes)
  | 1 => .ok (.tsDecode o.word)
  | 2 => .ok (.tsEncode o.dateTime)
  | 3 => .ok (.frameBuild o.command o.word o.bytes)
  | 4 => .ok .frameRx
  | 5 => .ok (.frameValidate o.bytes)
  | 6 => .ok (.respDecode o.bytes)
  | 7 => .ok (.logDecode o.bytes)
  | _ => .error (.reservedOpsel opsel)

/-- A record slice by its byte 0 (44_logged_data.md R146, R154). -/
def decodeRecord : List Byte → Except Reject Instr
  | [] => .error .recordType
  | t :: rest =>
    if t = Config.recTypeHeader then .ok (.recHeader rest)
    else if t = Config.recTypeData then .ok (.recData rest)
    else .error .recordType

/-- Words of msg_data, four bytes each; none when bytes are left over. -/
def wordsOf : List Byte → Option (List Word)
  | [] => some []
  | a :: b :: c :: d :: rest => (wordsOf rest).map (BitVec.ofNat 32 (Machine.beNat [a, b, c, d]) :: ·)
  | _ => none

/-- The wire command of a frame's parts: command code and msg_data (R61). -/
def decodeParts (p : Machine.FrameParts) : Except Reject Instr :=
  if p.command = Config.cmdGetId then
    match p.msgData with
    | [] => .ok (.getId p.station)
    | _ => .error (.msgData p.command)
  else if p.command = Config.cmdGetValues then
    match wordsOf p.msgData with
    | some ids => .ok (.getValues p.station ids)
    | none => .error (.msgData p.command)
  else if p.command = Config.cmdSetValue then
    match wordsOf p.msgData with
    | some [id, value] => .ok (.setValue p.station id value)
    | _ => .error (.msgData p.command)
  else if p.command = Config.cmdGetLogConfig then
    match p.msgData with
    | [] => .ok (.getLogConfig p.station)
    | _ => .error (.msgData p.command)
  else if p.command = Config.cmdGetLoggedData then
    match wordsOf p.msgData with
    | some [start, stop] => .ok (.getLoggedData p.station start stop)
    | _ => .error (.msgData p.command)
  else .error (.commandCode p.command)

/-- A whole frame as a wire command (R50, R61). -/
def decodeFrame (bytes : List Byte) : Except Reject Instr :=
  match Machine.frameValidate bytes with
  | .ok p => decodeParts p
  | .error _ => .error .malformedFrame

/-- The text of a legacy line, without its CR; none without a CR at the end or with a line end
inside (R60). -/
def lineText (bytes : List Byte) : Option (List Byte) :=
  if bytes.getLast? = some Config.cr ∧ newlineFree bytes.dropLast then some bytes.dropLast
  else none

/-- The value of a decimal digit. -/
def digitValue (c : Byte) : Option Nat :=
  if 0x30 ≤ c.toNat ∧ c.toNat ≤ 0x39 then some (c.toNat - 0x30) else none

/-- `param:02d`: two decimal digits (45_session.md R183). -/
def twoDigits (n : Nat) : List Byte :=
  [BitVec.ofNat 8 (0x30 + n / 10 % 10), BitVec.ofNat 8 (0x30 + n % 10)]

/-- A VI line after its two letters: the station id's text, then two digits (R183). -/
def decodeVi (text : List Byte) : Except Reject Instr :=
  match (text.drop (text.length - 2)).map digitValue with
  | [some hi, some lo] => .ok (.legacyVi (text.take (text.length - 2)) (10 * hi + lo))
  | _ => .error .malformedLine

/-- A legacy line (R183). -/
def decodeLine (bytes : List Byte) : Except Reject Instr :=
  match lineText bytes with
  | none => .error .malformedLine
  | some text =>
    if text.take 2 = Config.legacyIdText then .ok (.legacyId (text.drop 2))
    else if text.take 2 = Config.legacyViText then decodeVi (text.drop 2)
    else .error .unknownCommand

/-- The bytes of a wire command: a frame begins with STX, a legacy line with a letter. -/
def decodeCommand (bytes : List Byte) : Except Reject Instr :=
  match bytes with
  | [] => .error .unknownCommand
  | b :: _ => if b = Config.stx then decodeFrame bytes else decodeLine bytes

/-- The decoder: total, rejecting by name. -/
def decode : Presented → Except Reject Instr
  | .op opsel operands => decodeOp opsel operands
  | .command bytes => decodeCommand bytes
  | .record bytes => decodeRecord bytes

/-! ### The encoder -/

/-- A legacy line: letters, text, CR (R60, R183). -/
def legacyLine (letters text : List Byte) : List Byte := letters ++ text ++ [Config.cr]

/-- The bytes of a VI line (R183). -/
def viLine (stationText : List Byte) (param : Nat) : List Byte :=
  legacyLine Config.legacyViText (stationText ++ twoDigits param)

/-- The words of an instruction, from the spec's encodings: OPSEL with operands (R64), the frame
(R50, R61), the record slice (R57), the legacy line (R183). -/
def encode : Instr → Presented
  | .checksum bytes => .op 0 { bytes := bytes }
  | .tsDecode raw => .op 1 { word := raw }
  | .tsEncode dtm => .op 2 { dateTime := dtm }
  | .frameBuild command parameterId payload =>
    .op 3 { command := command, word := parameterId, bytes := payload }
  | .frameRx => .op 4 {}
  | .frameValidate bytes => .op 5 { bytes := bytes }
  | .respDecode response => .op 6 { bytes := response }
  | .logDecode response => .op 7 { bytes := response }
  | .getId station => .command (Machine.frameBytes station Config.cmdGetId [])
  | .getValues station ids =>
    .command (Machine.frameBytes station Config.cmdGetValues (Machine.be32s ids))
  | .setValue station id value =>
    .command (Machine.frameBytes station Config.cmdSetValue (Machine.be32s [id, value]))
  | .getLogConfig station => .command (Machine.frameBytes station Config.cmdGetLogConfig [])
  | .getLoggedData station start stop =>
    .command (Machine.frameBytes station Config.cmdGetLoggedData (Machine.be32s [start, stop]))
  | .recHeader rest => .record (Config.recTypeHeader :: rest)
  | .recData rest => .record (Config.recTypeData :: rest)
  | .legacyId text => .command (legacyLine Config.legacyIdText text)
  | .legacyVi text param => .command (viLine text param)

/-! ### The opcode table's words -/

/-- The rest of a frame whose operands are zero: LENGTH, the operand words of the command, checksum,
EOT (log entry 16). -/
def zeroOperandFrame (header : List Byte) : List Byte :=
  let command := header.getD 2 0
  let operands : List Byte :=
    if command = Config.cmdSetValue ∨ command = Config.cmdGetLoggedData then List.replicate 8 0
    else []
  Machine.frameBytes (header.getD 1 0) command operands

/-- A word of the opcode table laid out as it is presented, its operands zero (log entry 16). The
width tells the table's code spaces apart: 4 bits an OPSEL, 8 a record type, 16 the letters of a
legacy line, 32 the header of a frame. A width of 8 whose value is no record type is an OPSEL in a
whole byte. -/
def layOut (nbits w : Nat) : Presented :=
  if nbits < 8 then .op (BitVec.ofNat 4 w) {}
  else if nbits = 8 then
    if 2 ≤ w ∧ w < 16 then .op (BitVec.ofNat 4 w) {}
    else .record (BitVec.ofNat 8 w :: List.replicate 18 0)
  else if nbits = 16 then
    let letters := Machine.be16 w
    .command (legacyLine letters
      (if letters = Config.legacyViText then twoDigits 0 else []))
  else
    let header := Machine.be32 (BitVec.ofNat 32 w)
    if header.getD 0 0 = Config.stx ∧ header.getD 3 0 = Config.etx then
      .command (zeroOperandFrame header)
    else .command header

/-- The instruction the decoder reads from a word of the opcode table. -/
def decodeTableWord (nbits w : Nat) : Option Instr :=
  match decode (layOut nbits w) with
  | .ok i => some i
  | .error _ => none

end Sys2Proof
end

