-- ==== Sys2Proof/Machine/ResponseDecoder.lean ====
section
/-! DEFINITION. The function of RESP_DECODE (43_response_decoder.md R130 to R135). -/

namespace Sys2Proof.Machine

/-- message_length of a response: LENGTH >> LEN_WORDS_SHIFT (R130, 30_encoding.md R52). -/
def messageLength (cfg : Config) (response : List Byte) : Result Nat := do
  let len ← memRead cfg response 4 2
  return len >>> cfg.lenWordsShift

/-- The words at off, off + 4, …: so many of them, in order (R130). -/
def readWords (cfg : Config) (buf : List Byte) : Nat → Nat → Result (List Nat)
  | 0, _ => .ok []
  | n + 1, off => do
    let w ← memRead cfg buf off 4
    let ws ← readWords cfg buf n (off + 4)
    return w :: ws

/-- The function of RESP_DECODE: the words from offset 6 on, as signed integers (R130, R133). -/
def respDecode (cfg : Config) (response : List Byte) : Result (List Int) := do
  let n ← messageLength cfg response
  let ws ← readWords cfg response n 6
  return ws.map sext32

end Sys2Proof.Machine
end

