-- ==== Sys2Proof/Machine/TimestampCodec.lean ====
section
/-! DEFINITION. The packed timestamp (30_encoding.md R58, 41_timestamp.md R85 to R91); the bit layout
is known here only (R94). -/

namespace Sys2Proof.Machine

/-- A leap year is divisible by 4, over 2000 to 2063 (41_timestamp.md R87). -/
def isLeapYear (year : Nat) : Bool := year % 4 == 0

/-- dim(year, month) of R87. -/
def daysInMonth (year month : Nat) : Nat :=
  if month = 2 then (if isLeapYear year then 29 else 28)
  else if month = 4 ∨ month = 6 ∨ month = 9 ∨ month = 11 then 30
  else 31

/-- A valid date and time (R87). -/
def validDateTime (t : DateTime) : Bool :=
  decide (1 ≤ t.month ∧ t.month ≤ 12 ∧ 1 ≤ t.day ∧ t.day ≤ daysInMonth t.year t.month ∧
    t.hour ≤ 23 ∧ t.minute ≤ 59 ∧ t.second ≤ 59)

/-- The fields of a packed timestamp, by shift and mask; it never fails (R85). -/
def unpackTimestamp (raw : Word) : DateTime where
  year := (raw.extractLsb' 26 6).toNat + Config.yearBase
  month := (raw.extractLsb' 22 4).toNat
  day := (raw.extractLsb' 17 5).toNat
  hour := (raw.extractLsb' 12 5).toNat
  minute := (raw.extractLsb' 6 6).toNat
  second := (raw.extractLsb' 0 6).toNat

/-- The function of TS_DECODE (R85, R86). -/
def tsDecode (raw : Word) : Result DateTime :=
  if validDateTime (unpackTimestamp raw) then .ok (unpackTimestamp raw) else .error .decodeError

/-- The packed value v of R88. -/
def packTimestamp (t : DateTime) : Nat :=
  ((t.year - Config.yearBase) <<< 26) ||| (t.month <<< 22) ||| (t.day <<< 17) |||
    (t.hour <<< 12) ||| (t.minute <<< 6) ||| t.second

/-- The years the 6 bits of year_offset hold (R90). -/
def encodableYear (year : Nat) : Bool :=
  decide (Config.yearBase ≤ year ∧ year < Config.yearBase + 2 ^ Config.yearBits)

/-- The function of TS_ENCODE as a word: the year check first (R90), then the calendar (R91). -/
def tsEncodeWord (t : DateTime) : Result Word :=
  if !encodableYear t.year then .error .rangeError
  else if !validDateTime t then .error .invalidArgument
  else .ok (BitVec.ofNat 32 (packTimestamp t))

/-- The function of TS_ENCODE: four bytes, big-endian (R88, R89). -/
def tsEncode (t : DateTime) : Result (List Byte) := (tsEncodeWord t).map be32

end Sys2Proof.Machine
end

