-- ==== Sys2Proof/Machine/Values.lean ====
section
/-! DEFINITION. The values operations deliver (30_encoding.md R64, 44_logged_data.md R140, 45_session.md
R172 to R180) and the completions the host receives (00_scope.md R9). -/

namespace Sys2Proof.Machine

/-- The value of a key in a logged record: a float's 32-bit pattern, or nothing (44_logged_data.md
R149, 30_encoding.md R59). -/
inductive FieldValue where
  | float (pattern : Word)
  | empty
  deriving DecidableEq, Repr

/-- A LoggedRecord (44_logged_data.md R140). -/
structure LoggedRecord where
  fields : List (Word × FieldValue)
  timestamp : DateTime
  interval : Word
  deriving DecidableEq, Repr

/-- The mapping a consumer sees: a later pair replaces an earlier one of the same key (R140, R153). -/
def LoggedRecord.lookup (r : LoggedRecord) (key : Word) : Option FieldValue :=
  (r.fields.reverse.find? fun p => p.1 == key).map Prod.snd

/-- The named fields of an InstrumentIdentity, in the order of 45_session.md R172. -/
inductive IdentityField where
  | model
  | variant
  | subType
  | range
  | build
  | branch
  deriving DecidableEq, Repr

/-- The six names, in order (R172). -/
def IdentityField.names : List IdentityField :=
  [.model, .variant, .subType, .range, .build, .branch]

/-- The operating states of the instrument (45_session.md R178). -/
inductive OperatingState where
  | normal
  | zeroCheck
  | spanCheck
  | error
  deriving DecidableEq, Repr

/-- The states that can be requested; requesting Error is not described (45_session.md R180,
91_not_in_source.md N19). -/
inductive TargetState where
  | normal
  | zeroCheck
  | spanCheck
  deriving DecidableEq, Repr

/-- The value an operation hands back. -/
inductive Value where
  | byte (b : Byte)
  | dateTime (t : DateTime)
  | bytes (bs : List Byte)
  | frame (parts : FrameParts)
  | ints (is : List Int)
  | records (rs : List LoggedRecord)
  | text (line : List Byte)
  | identity (fields : List (IdentityField × Int))
  | values (vs : List (Word × Int))
  | texts (vs : List (Word × List Byte))
  | paramIds (ids : List Word)
  | operatingState (st : OperatingState)
  | stateReached
  deriving DecidableEq, Repr

/-- An outcome the host is handed: Ok, Err or Refused (00_scope.md R9). -/
inductive Completion where
  | ok (v : Value)
  | err (e : Err)
  | refused
  deriving DecidableEq, Repr

/-- The completion of a result or error (60_exceptions.md R200). -/
def Completion.ofResult {α : Type} (wrap : α → Value) : Result α → Completion
  | .ok v => .ok (wrap v)
  | .error e => .err e

end Sys2Proof.Machine
end

