-- ==== Sys2Proof/Machine/LoggedDataDecoder.lean ====
section
/-! DEFINITION. The record framer: the steps of LOG_DECODE (44_logged_data.md R140 to R158) and the
state it keeps while it runs (10_state.md R17). -/

namespace Sys2Proof.Machine

/-- What LOG_DECODE keeps for the length of one operation: the response body, items_per_record,
number_of_records, the record index i, ACTIVE_KEYS and the output so far (10_state.md R12, R17). -/
structure Framer where
  body : List Byte
  itemsPerRecord : Nat
  records : Nat
  index : Nat
  keys : List Word
  out : List LoggedRecord
  deriving DecidableEq, Repr

/-- The framer of a record that is decoded by itself: one record, ACTIVE_KEYS empty (log entry 6). -/
def Framer.solo : Framer := ⟨[], Config.fixedWords, 1, 0, [], []⟩

/-- The record slice of the framer's index: the window less SLICE_MARGIN (R145). -/
def Framer.currentSlice (cfg : Config) (f : Framer) : List Byte :=
  let w := Config.wordBytes * f.itemsPerRecord
  slice f.body (f.index * w) ((f.index + 1) * w - cfg.sliceMargin)

/-- The response body: `response[6 : -2]` (R142). -/
def responseBody (response : List Byte) : List Byte := slice response 6 (response.length - 2)

/-- Steps R140 to R144 and R152: no framer when the command byte is not 7, else a framer at record
0. -/
def logStart (cfg : Config) (response : List Byte) : Result (Option Framer) :=
  if response[2]? = some Config.cmdGetLoggedData then do
    let messageLen ← messageLength cfg response
    let fieldsPerRecord ← memRead cfg (responseBody response) 12 4
    let items := fieldsPerRecord + Config.fixedWords
    return some ⟨responseBody response, items, messageLen / items, 0, [], []⟩
  else .ok none

/-- The ParameterIds of a header record, from off on. Under AVAILABLE_BYTES only the ids that are at
least partly present (R147, 93_implementation_defined.md U3). -/
def readIds (cfg : Config) (window : List Byte) : Nat → Nat → Result (List Word)
  | 0, _ => .ok []
  | n + 1, off =>
    if cfg.shortRead = .availableBytes ∧ window.length ≤ off then .ok []
    else do
      let w ← memRead cfg window off 4
      let ws ← readIds cfg window n (off + 4)
      return BitVec.ofNat 32 w :: ws

/-- The value of one pair: the slot is read, all four bytes of it, only for a key above the
threshold (R149). -/
def fieldValue (window : List Byte) (key : Word) (off : Nat) : Result FieldValue :=
  if Config.floatKeyThreshold < key.toNat then do
    let w ← memReadFull window off 4
    return .float (BitVec.ofNat 32 w)
  else .ok .empty

/-- The pairs of a data record: one for each key, the slots from off on (R148, R153). -/
def readPairs (window : List Byte) : List Word → Nat → Result (List (Word × FieldValue))
  | [], _ => .ok []
  | key :: keys, off => do
    let v ← fieldValue window key off
    let ps ← readPairs window keys (off + 4)
    return (key, v) :: ps

/-- A header record replaces ACTIVE_KEYS and delivers nothing (R147). -/
def headerRecord (cfg : Config) (f : Framer) (window : List Byte) : Result Framer := do
  let n ← memRead cfg window 12 4
  let ids ← readIds cfg window n 16
  return { f with keys := ids, index := f.index + 1 }

/-- A data record appends one LoggedRecord, its slots paired with the first keys (R148 to R153). -/
def dataRecord (cfg : Config) (f : Framer) (window : List Byte) : Result Framer := do
  let n ← memRead cfg window 12 4
  let raw ← memRead cfg window 4 4
  let ts ← tsDecode (BitVec.ofNat 32 raw)
  let iv ← memRead cfg window 8 4
  let pairs ← readPairs window (f.keys.take n) 16
  return { f with out := f.out ++ [⟨pairs, ts, BitVec.ofNat 32 iv⟩], index := f.index + 1 }

/-- One record: the dispatch on byte 0 of its slice (R146, R154). -/
def framerTurn (cfg : Config) (f : Framer) : Result Framer := do
  let window := f.currentSlice cfg
  let t ← byteAt window 0
  if t = Config.recTypeHeader then headerRecord cfg f window
  else if t = Config.recTypeData then dataRecord cfg f window
  else .error .decodeError

/-- So many records, in increasing index (R151, R156). -/
def framerRun (cfg : Config) : Nat → Framer → Result (List LoggedRecord)
  | 0, f => .ok f.out
  | n + 1, f => do
    let f' ← framerTurn cfg f
    framerRun cfg n f'

/-- The function of LOG_DECODE, whole (R158). -/
def logDecode (cfg : Config) (response : List Byte) : Result (List LoggedRecord) := do
  match ← logStart cfg response with
  | none => return []
  | some f => framerRun cfg f.records f

end Sys2Proof.Machine
end

