-- ==== Sys2Proof/Machine/State.lean ====
section
/-! DEFINITION. The state of the three agents, the events they make, the reasons a step can stop, and
reset (10_state.md, 00_scope.md R8). -/

namespace Sys2Proof.Machine

/-- PHASE (10_state.md R15). -/
inductive Phase where
  | idle
  | rxWait
  deriving DecidableEq, Repr

/-- The transport connection (10_state.md R22): none, one that stands, or one the peer dropped while
the block was IDLE, which nobody has met yet (60_exceptions.md R210). -/
inductive Link where
  | closed
  | opened
  | dropped
  deriving DecidableEq, Repr

/-- The session operations (45_session.md R172 to R180). -/
inductive SessionOp where
  | identify
  | getParameterValues (ids : List Word)
  | setParameterValue (id value : Word)
  | getLoggingConfiguration
  | getLoggedData (start stop : Option DateTime)
  | getOperatingState
  | setOperatingState (target : TargetState)
  deriving DecidableEq, Repr

/-- What the host does with the response of an exchange: what is left of the wire command or session
operation in progress. -/
inductive Await where
  /-- RESP_DECODE and deliver the integers (30_encoding.md R61). -/
  | words
  /-- LOG_DECODE and deliver the records (R61). -/
  | records
  /-- Deliver the legacy line. -/
  | text
  /-- The first and the second exchange of identify (45_session.md R172). -/
  | identifyFirst
  | identifySecond (first : List Int)
  /-- get_parameter_values, BINARY (R173). -/
  | values (ids : List Word)
  /-- get_parameter_values, LEGACY: the id asked, the ids left, the strings so far (R174). -/
  | valuesText (id : Word) (rest : List Word) (got : List (Word × List Byte))
  /-- get_logging_configuration (R176). -/
  | logConfig
  /-- get_operating_state, BINARY and LEGACY (R178, R179). -/
  | operatingState
  | operatingStateText
  /-- set_operating_state: its command's reply, then its polls, with the number left (R180). -/
  | setStateReply (target : TargetState)
  | setStatePoll (target : TargetState) (left : Nat)
  deriving DecidableEq, Repr

/-- The step of an exchange that is to come next; each is one step of the system (45_session.md R181,
R177, 00_scope.md R8). -/
inductive Stage where
  /-- TS_ENCODE of the start, then of the end (R177). -/
  | encodeStart (start stop : DateTime)
  | encodeStop (first : List Byte) (stop : DateTime)
  /-- FRAME_BUILD of the request. -/
  | build (command : Byte) (parameterId : Word) (payload : List Byte)
  /-- send(F): the host opens or reuses the connection and hands over the whole request. -/
  | send (request : List Byte)
  /-- Issue(FRAME_RX). -/
  | receive
  /-- FRAME_RX is in progress: the next step is the transport's. -/
  | waiting
  /-- FRAME_VALIDATE of the response, the host's choice. -/
  | validate (response : List Byte)
  /-- RESP_DECODE or LOG_DECODE of the response, or the host's reading of a legacy line. -/
  | decode (response : List Byte)
  deriving DecidableEq, Repr

/-- The exchange in progress: its next step, and what its response is for. -/
structure Exchange where
  stage : Stage
  await : Await
  deriving DecidableEq, Repr

/-- What the host does, beside issuing operations and wire commands (00_scope.md R8, R231). -/
inductive HostAct where
  | call (op : SessionOp)
  /-- The next step of the exchange in progress (45_session.md R181). -/
  | proceed
  /-- Hand bytes to the transport (45_session.md R181). -/
  | send (bytes : List Byte)
  | openLink
  | closeLink
  /-- Whether responses are validated before they are decoded (42_frame.md R114). -/
  | chooseValidation (on : Bool)
  /-- Reset, with the straps it presents (70_reset_and_hazards.md R230). -/
  | reset (stationId : Byte) (dialect : Dialect)
  deriving DecidableEq, Repr

/-- What the transport and the instrument behind it do (00_scope.md R8, 20_memory.md R42). -/
inductive TransportAct where
  /-- Bytes of the instrument reach the transport. -/
  | arrive (bytes : List Byte)
  /-- `Chunk`: the next bytes of the stream, at most so many, go to a waiting FRAME_RX. -/
  | chunk (size : Nat)
  | timeout
  | disconnect
  /-- Whether an attempt to connect succeeds from now on (60_exceptions.md R202). -/
  | setReachable (on : Bool)
  deriving DecidableEq, Repr

/-- One event of one agent (R8). -/
inductive Event where
  /-- `Issue(op, operands)`. -/
  | issue (opsel : BitVec 4) (operands : Operands)
  /-- The host runs the wire command these bytes are. -/
  | command (bytes : List Byte)
  | host (act : HostAct)
  | transport (act : TransportAct)
  deriving DecidableEq, Repr

/-- No step faults: every error is a completion and the machine goes on (60_exceptions.md R200,
R212). The type has no constructor. -/
inductive Fault where
  deriving DecidableEq, Repr

/-- Why a step is refused. -/
inductive Refusal where
  /-- An instruction without a meaning yet; exec raises it by name. Safe. No arm does. -/
  | notModelled (mnemonic : String)
  /-- The step raises it when the host is to run a wire command whose bytes are no row of the opcode
  table. Safe (log entry 17). -/
  | undecodable (why : Reject)
  deriving DecidableEq, Repr

/-- The whole state. INVENTORY.md gives each field's rule and reset value. -/
structure State where
  /-- CFG.STATION_ID (10_state.md R13). -/
  stationId : Byte
  /-- CFG.DIALECT (R14). -/
  dialect : Dialect
  /-- PHASE (R15). -/
  phase : Phase
  /-- RXBUF (R16). -/
  rxbuf : List Byte
  /-- What a LOG_DECODE in progress keeps (R17). -/
  framer : Option Framer
  /-- The transport connection (R22). -/
  link : Link
  /-- Whether an attempt to connect succeeds (60_exceptions.md R202). -/
  reachable : Bool
  /-- Bytes the instrument has sent and the block has not been given, oldest first (R19). -/
  residue : List Byte
  /-- Bytes the host has handed to the transport, oldest first (45_session.md R181). -/
  sent : List Byte
  /-- The exchange of the wire command or session operation in progress. -/
  session : Option Exchange
  /-- Whether the session validates responses (R181). -/
  validates : Bool
  /-- What the host has been handed, oldest first (00_scope.md R8, R9). -/
  completions : List Completion
  /-- The events still to be made, next first (R8). -/
  agenda : List Event
  deriving DecidableEq, Repr

/-- The machine right after reset with the straps presented at it (10_state.md R21). What R21 does
not name is as log entries 1, 7, 11, 14 and 15 say. -/
def State.resetWith (stationId : Byte) (dialect : Dialect) : State where
  stationId := stationId
  dialect := dialect
  phase := .idle
  rxbuf := []
  framer := none
  link := .closed
  reachable := true
  residue := []
  sent := []
  session := none
  validates := false
  completions := []
  agenda := []

/-- The machine right after reset, with straps the model chooses (DESIGN CHOICE, log entry 2). -/
def State.reset : State := State.resetWith 0 .binary

/-- The outcome of a step or of an instruction. -/
abbrev Outcome := Host.Outcome State Fault Refusal

end Sys2Proof.Machine
end

