-- ==== Sys2Proof/Machine/Ops.lean ====
section
/-! DEFINITION. The operations the meanings share: a completion, the refusal of an Issue, the start
and the end of a receive, the host's use of the connection, and the exchange in progress. There is no
exception to take and none to return from (60_exceptions.md R210, R212, R214): an error is a
completion. -/

namespace Sys2Proof.Machine

/-- `Complete(result)` or `Refused`: the host is handed it, and nothing else changes (R200, R212,
R213). -/
def complete (c : Completion) (s : State) : State :=
  { s with completions := s.completions ++ [c] }

/-- An Issue in RX_WAIT is Refused; in IDLE it leads to the given state (10_state.md R15, R213). -/
def acceptIdle (s next : State) : Outcome :=
  if s.phase = .rxWait then .next (complete .refused s) else .next next

/-- An operation that completes in its own step and changes no state (20_memory.md R40). -/
def pureOp (c : Completion) (s : State) : Outcome := acceptIdle s (complete c s)

/-- `Issue(FRAME_RX)` in IDLE: RXBUF is emptied, PHASE becomes RX_WAIT (42_frame.md R104). -/
def beginReceive (s : State) : State := { s with phase := .rxWait, rxbuf := [] }

/-- The completion of FRAME_RX: RXBUF is emptied, PHASE returns to IDLE (R104). -/
def endReceive (s : State) : State := { s with phase := .idle, rxbuf := [] }

/-- The host's opening of the transport: a new connection, if the instrument can be reached, whose
stream starts with nothing. DESIGN CHOICE, unsafe (log entry 11): over a connection that stands, and
over one the peer has dropped and nobody has met, opening does nothing and fails with nothing, so the
drop stays to be met by the next send or FRAME_RX. -/
def connect (s : State) : Option State :=
  match s.link with
  | .closed => if s.reachable then some { s with link := .opened, residue := [] } else none
  | .opened | .dropped => some s

/-- Bytes handed to the transport over a connection that stands; none when it does not
(60_exceptions.md R202, R210). -/
def transmit (bytes : List Byte) (s : State) : Option State :=
  match s.link with
  | .opened => some { s with sent := s.sent ++ bytes }
  | .closed | .dropped => none

/-- A failure of the transport the host meets: ConnectionError, and no connection stands (R202). -/
def linkFailure (s : State) : State :=
  complete (.err .connectionError) { s with link := .closed }

/-- send(F): the host opens or reuses the connection and hands over the whole request, one act of
the host (45_session.md R181, log entry 11); none when it cannot. -/
def sendRequest (bytes : List Byte) (s : State) : Option State :=
  (connect s).bind (transmit bytes)

/-! ### The exchange in progress -/

/-- The exchange goes on with the given step. -/
def engage (stage : Stage) (k : Await) (s : State) : State :=
  { s with session := some ⟨stage, k⟩ }

/-- No exchange is in progress any more. -/
def disengage (s : State) : State := { s with session := none }

/-- The send of an exchange: FRAME_RX is issued next; a failure is ConnectionError and ends the
exchange (60_exceptions.md R202, R212). -/
def exchangeSend (bytes : List Byte) (k : Await) (s : State) : State :=
  match sendRequest bytes s with
  | some s' => engage .receive k s'
  | none => linkFailure (disengage s)

/-- One exchange at a time: a receive or an exchange is in progress (70_reset_and_hazards.md R242). -/
abbrev Busy (s : State) : Prop := s.phase = .rxWait ∨ s.session ≠ none

end Sys2Proof.Machine
end

