-- ==== Sys2Proof/Machine/Block.lean ====
section
/-! DEFINITION. The meanings of the eight operations of the block (30_encoding.md R64). -/

namespace Sys2Proof.Machine

/-- CHECKSUM (40_checksum.md R80). -/
def execChecksum (bytes : List Byte) (s : State) : Outcome :=
  pureOp (.ok (.byte (xorAll bytes))) s

/-- TS_DECODE (41_timestamp.md R85, R86). -/
def execTsDecode (raw : Word) (s : State) : Outcome :=
  pureOp (.ofResult .dateTime (tsDecode raw)) s

/-- TS_ENCODE (R88 to R91). -/
def execTsEncode (dtm : DateTime) (s : State) : Outcome :=
  pureOp (.ofResult .bytes (tsEncode dtm)) s

/-- FRAME_BUILD, with CFG.STATION_ID (42_frame.md R100 to R103). -/
def execFrameBuild (command : Byte) (parameterId : Word) (payload : List Byte) (s : State) :
    Outcome :=
  pureOp (.ofResult .bytes (frameBuild s.stationId command parameterId payload)) s

/-- FRAME_RX: the receive begins; its later steps are the transport's (R104). -/
def execFrameRx (s : State) : Outcome := acceptIdle s (beginReceive s)

/-- FRAME_VALIDATE (R111, R112). -/
def execFrameValidate (bytes : List Byte) (s : State) : Outcome :=
  pureOp (.ofResult .frame (frameValidate bytes)) s

/-- RESP_DECODE (43_response_decoder.md R130). -/
def execRespDecode (response : List Byte) (s : State) : Outcome :=
  pureOp (.ofResult .ints (respDecode Config.hw response)) s

end Sys2Proof.Machine
end

