-- ==== Sys2Proof/Machine/Records.lean ====
section
/-! DEFINITION. The record types, the micro-operations of LOG_DECODE, and LOG_DECODE as their
sequence in one step (44_logged_data.md R146 to R158, 10_state.md R17). -/

namespace Sys2Proof.Machine

/-- LOG_DECODE completes; what it kept is discarded (10_state.md R17). -/
def endRecords (r : Result (List LoggedRecord)) (s : State) : State :=
  complete (.ofResult .records r) { s with framer := none }

/-- After a record: the next one is to come, or the operation completes with its output; a failed
record ends the operation (R151, R156). -/
def afterRecord (r : Result Framer) (s : State) : State :=
  match r with
  | .error e => endRecords (.error e) s
  | .ok f => if f.index < f.records then { s with framer := some f } else endRecords (.ok f.out) s

/-- A record of the LOG_DECODE in progress, or one that is decoded by itself, which like any
operation is refused in RX_WAIT (log entry 6). -/
def runRecord (turn : Framer → Result Framer) (s : State) : Outcome :=
  match s.framer with
  | some f => .next (afterRecord (turn f) s)
  | none => acceptIdle s (afterRecord (turn .solo) s)

/-- REC_HEADER: the slice is its type byte and the rest (R147). -/
def execRecHeader (rest : List Byte) (s : State) : Outcome :=
  runRecord (fun f => headerRecord Config.hw f (Config.recTypeHeader :: rest)) s

/-- REC_DATA (R148). -/
def execRecData (rest : List Byte) (s : State) : Outcome :=
  runRecord (fun f => dataRecord Config.hw f (Config.recTypeData :: rest)) s

/-- The slice of the record a LOG_DECODE in progress is at (R145). -/
def fetchRecord (f : Framer) : Presented := .record (f.currentSlice Config.hw)

/-- One record of the LOG_DECODE in progress: its slice is fetched, decoded by its type byte, and
executed; a slice of no record type is DecodeError (R146, R154, R155). -/
def recordTurn (f : Framer) (s : State) : Outcome :=
  match decode (fetchRecord f) with
  | .ok (.recHeader rest) => execRecHeader rest s
  | .ok (.recData rest) => execRecData rest s
  | _ => .next (endRecords (.error .decodeError) s)

/-- So many records, while the LOG_DECODE is in progress. -/
def runRecords : Nat → State → Outcome
  | 0, s => .next s
  | n + 1, s =>
    match s.framer with
    | none => .next s
    | some f =>
      match recordTurn f s with
      | .next s' => runRecords n s'
      | .fault r => .fault r
      | .refused r => .refused r

/-- LOG_DECODE: steps R140 to R144, then all records, in the one step of the operation (R158,
00_scope.md R8). -/
def execLogDecode (response : List Byte) (s : State) : Outcome :=
  if s.phase = .rxWait then .next (complete .refused s)
  else
    match logStart Config.hw response with
    | .error e => .next (endRecords (.error e) s)
    | .ok none => .next (endRecords (.ok []) s)
    | .ok (some f) =>
      if f.records = 0 then .next (endRecords (.ok []) s)
      else runRecords f.records { s with framer := some f }

end Sys2Proof.Machine
end

