-- ==== Sys2Proof/Machine/Wire.lean ====
section
/-! DEFINITION. The meanings of the wire commands and of the legacy lines: each is the request of one
exchange with the instrument (30_encoding.md R61, 45_session.md R181, R183). -/

namespace Sys2Proof.Machine

/-- The request of an exchange of the given dialect: Refused while a receive or an exchange is in
progress, UnsupportedOperation in a session of the other dialect, else the request is sent, whole, and
the rest of the exchange is to come, a step each (00_scope.md R8, R181, R182, log entries 9, 10). -/
def wireExchange (dialect : Dialect) (request : Result (List Byte)) (k : Await) (s : State) :
    Outcome :=
  .next <|
    if Busy s then complete .refused s
    else if s.dialect = dialect then
      match request with
      | .error e => complete (.err e) s
      | .ok bytes => exchangeSend bytes k s
    else complete (.err .unsupportedOperation) s

/-- GET_ID: an empty request (R172). -/
def execGetId (station : Byte) (s : State) : Outcome :=
  wireExchange .binary (frameBuild station Config.cmdGetId 0 []) .words s

/-- GET_VALUES: the ids, each as four bytes (R173). -/
def execGetValues (station : Byte) (ids : List Word) (s : State) : Outcome :=
  wireExchange .binary (frameBuild station Config.cmdGetValues 0 (be32s ids)) .words s

/-- SET_VALUE: the id and the value (R175). -/
def execSetValue (station : Byte) (id value : Word) (s : State) : Outcome :=
  wireExchange .binary (frameBuild station Config.cmdSetValue 0 (be32s [id, value])) .words s

/-- GET_LOG_CONFIG: an empty request (R176). -/
def execGetLogConfig (station : Byte) (s : State) : Outcome :=
  wireExchange .binary (frameBuild station Config.cmdGetLogConfig 0 []) .words s

/-- GET_LOGGED_DATA: the two packed timestamps; the response goes to LOG_DECODE (R177). -/
def execGetLoggedData (station : Byte) (start stop : Word) (s : State) : Outcome :=
  wireExchange .binary (frameBuild station Config.cmdGetLoggedData 0 (be32s [start, stop]))
    .records s

/-- LEGACY_ID: the line `ID`, station id, CR (R183). -/
def execLegacyId (stationText : List Byte) (s : State) : Outcome :=
  wireExchange .legacy (.ok (legacyLine Config.legacyIdText stationText)) .text s

/-- LEGACY_VI: the line `VI`, station id, two digits, CR (R183). -/
def execLegacyVi (stationText : List Byte) (param : Nat) (s : State) : Outcome :=
  wireExchange .legacy (.ok (viLine stationText param)) .text s

end Sys2Proof.Machine
end

