-- ==== Sys2Proof/Machine/Dispatch.lean ====
section
/-! DEFINITION. One arm per instruction. -/

namespace Sys2Proof.Machine

def exec (i : Instr) (s : State) : Host.Outcome State Fault Refusal :=
  match i with
  | .checksum bytes => Sys2Proof.Machine.execChecksum bytes s
  | .tsDecode raw => Sys2Proof.Machine.execTsDecode raw s
  | .tsEncode dtm => Sys2Proof.Machine.execTsEncode dtm s
  | .frameBuild command parameterId payload => Sys2Proof.Machine.execFrameBuild command parameterId payload s
  | .frameRx => Sys2Proof.Machine.execFrameRx s
  | .frameValidate bytes => Sys2Proof.Machine.execFrameValidate bytes s
  | .respDecode response => Sys2Proof.Machine.execRespDecode response s
  | .logDecode response => Sys2Proof.Machine.execLogDecode response s
  | .getId station => Sys2Proof.Machine.execGetId station s
  | .getValues station ids => Sys2Proof.Machine.execGetValues station ids s
  | .setValue station id value => Sys2Proof.Machine.execSetValue station id value s
  | .getLogConfig station => Sys2Proof.Machine.execGetLogConfig station s
  | .getLoggedData station start stop => Sys2Proof.Machine.execGetLoggedData station start stop s
  | .recHeader rest => Sys2Proof.Machine.execRecHeader rest s
  | .recData rest => Sys2Proof.Machine.execRecData rest s
  | .legacyId stationText => Sys2Proof.Machine.execLegacyId stationText s
  | .legacyVi stationText param => Sys2Proof.Machine.execLegacyVi stationText param s

end Sys2Proof.Machine
end

