-- ==== Sys2Proof/Machine/Session.lean ====
section
/-! DEFINITION. The host's session operations, the steps of an exchange, and the end of a receive
(45_session.md R170 to R183, 42_frame.md R104). -/

namespace Sys2Proof.Machine

/-! ### Requests -/

/-- The line `ID{station_id}\r` of a session (R183). -/
def idRequest (s : State) : List Byte :=
  legacyLine Config.legacyIdText (Config.stationIdText s.stationId)

/-- The line `VI{station_id}{param:02d}\r` of a session (R183). -/
def viRequest (param : Nat) (s : State) : List Byte :=
  viLine (Config.stationIdText s.stationId) param

/-- FRAME_BUILD of GET_ID (R172). -/
def identityStage : Stage := .build Config.cmdGetId 0 []

/-- FRAME_BUILD of GET_VALUES for a batch of ids (R173). -/
def valuesStage (ids : List Word) : Stage := .build Config.cmdGetValues 0 (be32s ids)

/-- FRAME_BUILD of SET_VALUE (R175). -/
def setStage (id value : Word) : Stage := .build Config.cmdSetValue id (be32 value)

/-! ### What a response means -/

/-- The operating state of a decoded response, BINARY: 0, 1, 2, else Error, and Error for no integer
(R178). -/
def binaryState (ints : List Int) : OperatingState :=
  match ints.head? with
  | some i => if i = 0 then .normal else if i = 1 then .zeroCheck else if i = 2 then .spanCheck
    else .error
  | none => .error

/-- The operating state of a legacy line: "000", "032", "016", any other fails (R179). -/
def legacyState (line : List Byte) : Result OperatingState :=
  if line = [0x30, 0x30, 0x30] then .ok .normal
  else if line = [0x30, 0x33, 0x32] then .ok .zeroCheck
  else if line = [0x30, 0x31, 0x36] then .ok .spanCheck
  else .error .unrecognizedState

/-- The value sent for a requested state (R180). -/
def TargetState.code : TargetState → Word
  | .normal => 0
  | .zeroCheck => 1
  | .spanCheck => 2

/-- The operating state a request asks for (R180). -/
def TargetState.state : TargetState → OperatingState
  | .normal => .normal
  | .zeroCheck => .zeroCheck
  | .spanCheck => .spanCheck

/-! ### Continuations -/

/-- get_parameter_values, LEGACY: one VI command for each id below 100, in turn; the empty string for
every other id, with nothing sent (R174). -/
def legacyValues : List Word → List (Word × List Byte) → State → State
  | [], got, s => complete (.ok (.texts got)) s
  | id :: rest, got, s =>
    if id.toNat < Config.legacyIdLimit then
      engage (.send (viRequest id.toNat s)) (.valuesText id rest got) s
    else legacyValues rest (got ++ [(id, [])]) s

/-- One poll of set_operating_state, with so many polls left, itself among them (R180). -/
def pollState (target : TargetState) (left : Nat) (s : State) : State :=
  engage (valuesStage [Config.paramOperatingState]) (.setStatePoll target left) s

/-- After a poll: done when the state is the requested one, ConvergenceTimeout when it was the last,
else the next (R180). -/
def afterPoll (target : TargetState) (left : Nat) (ints : List Int) (s : State) : State :=
  if binaryState ints = target.state then complete (.ok .stateReached) s
  else if left ≤ 1 then complete (.err .convergenceTimeout) s
  else pollState target (left - 1) s

/-- RESP_DECODE of a response, then what follows; its error ends the operation (60_exceptions.md
R212). -/
def withInts (response : List Byte) (s : State) (k : List Int → State) : State :=
  match respDecode Config.hw response with
  | .error e => complete (.err e) s
  | .ok ints => k ints

/-- The last step of an exchange, which is no longer in progress: the decoder is issued, or the line
is read, and the host delivers the result or begins its next exchange (R172 to R181). -/
def resume (k : Await) (response : List Byte) (s : State) : State :=
  match k with
  | .words => withInts response s fun ints => complete (.ok (.ints ints)) s
  | .records => complete (.ofResult .records (logDecode Config.hw response)) s
  | .text => complete (.ok (.text response)) s
  | .identifyFirst => withInts response s fun ints =>
      engage identityStage (.identifySecond ints) s
  | .identifySecond first => withInts response s fun ints =>
      complete (.ok (.identity (IdentityField.names.zip (first ++ ints)))) s
  | .values ids => withInts response s fun ints => complete (.ok (.values (ids.zip ints))) s
  | .valuesText id rest got => legacyValues rest (got ++ [(id, response)]) s
  | .logConfig => withInts response s fun ints =>
      complete (.ok (.paramIds (ints.map (BitVec.ofInt 32)))) s
  | .operatingState => withInts response s fun ints =>
      complete (.ok (.operatingState (binaryState ints))) s
  | .operatingStateText => complete (.ofResult .operatingState (legacyState response)) s
  | .setStateReply target => withInts response s fun _ =>
      pollState target Config.hw.convergenceBound s
  | .setStatePoll target left => withInts response s fun ints => afterPoll target left ints s

/-! ### The steps of an exchange -/

/-- The result of an operation the host issued for an exchange: with a value the exchange goes on,
with an error it ends, and the wire command or session operation with it (60_exceptions.md R212). -/
def afterOperation {α : Type} (r : Result α) (next : α → Stage) (k : Await) (s : State) : State :=
  match r with
  | .ok v => engage (next v) k s
  | .error e => complete (.err e) (disengage s)

/-- One step of an exchange (R181, R177). -/
def exchangeStep (x : Exchange) (s : State) : State :=
  match x.stage with
  | .encodeStart start stop => afterOperation (tsEncode start) (.encodeStop · stop) x.await s
  | .encodeStop first stop =>
    afterOperation (tsEncode stop) (fun last => .build Config.cmdGetLoggedData 0 (first ++ last))
      x.await s
  | .build command parameterId payload =>
    afterOperation (frameBuild s.stationId command parameterId payload) .send x.await s
  | .send request => exchangeSend request x.await s
  | .receive => engage .waiting x.await (beginReceive s)
  | .waiting => s
  | .validate response =>
    afterOperation (frameValidate response) (fun _ => .decode response) x.await s
  | .decode response => resume x.await response (disengage s)

/-- The host's turn: the next step of the exchange in progress. In RX_WAIT it waits for the receive in
progress, whoever issued it (log entry 12). -/
def hostTurn (s : State) : State :=
  match s.session with
  | some x => if s.phase = .rxWait then s else exchangeStep x s
  | none => s

/-- The step of an exchange after its response: FRAME_VALIDATE, at the host's choice, in BINARY; else
the decoder (R181). -/
def responseStage (s : State) (response : List Byte) : Stage :=
  if s.validates ∧ s.dialect = .binary then .validate response else .decode response

/-- FRAME_RX completes with a result or an error (42_frame.md R104). Its completion goes to the
exchange that issued it, or else to the host (log entry 9). -/
def finishReceive (r : Result (List Byte)) (s : State) : State :=
  match s.session with
  | some ⟨.waiting, k⟩ => afterOperation r (responseStage s) k (endReceive s)
  | _ => complete (.ofResult .bytes r) (endReceive s)

/-! ### Calls -/

/-- A session operation that the LEGACY dialect does not have (R182). -/
def binaryOnly (s next : State) : State :=
  match s.dialect with
  | .binary => next
  | .legacy => complete (.err .unsupportedOperation) s

/-- identify (R172). -/
def callIdentify (s : State) : State :=
  match s.dialect with
  | .binary => engage identityStage .identifyFirst s
  | .legacy => engage (.send (idRequest s)) .text s

/-- get_parameter_values (R173, R174). -/
def callGetValues (ids : List Word) (s : State) : State :=
  match s.dialect with
  | .binary => engage (valuesStage ids) (.values ids) s
  | .legacy => legacyValues ids [] s

/-- set_parameter_value (R175). -/
def callSetValue (id value : Word) (s : State) : State :=
  binaryOnly s (engage (setStage id value) .words s)

/-- get_logging_configuration (R176). -/
def callGetLogConfig (s : State) : State :=
  binaryOnly s (engage (.build Config.cmdGetLogConfig 0 []) .logConfig s)

/-- get_logged_data: InvalidArgument when start or end is absent (R177). -/
def callGetLoggedData (start stop : Option DateTime) (s : State) : State :=
  binaryOnly s <|
    match start, stop with
    | some a, some b => engage (.encodeStart a b) .records s
    | _, _ => complete (.err .invalidArgument) s

/-- get_operating_state (R178, R179). -/
def callGetState (s : State) : State :=
  match s.dialect with
  | .binary => engage (valuesStage [Config.paramOperatingState]) .operatingState s
  | .legacy => engage (.send (viRequest Config.voltageInputParam.val s)) .operatingStateText s

/-- set_operating_state (R180). -/
def callSetState (target : TargetState) (s : State) : State :=
  binaryOnly s
    (engage (setStage Config.paramOperatingState target.code) (.setStateReply target) s)

/-- The start of a session operation; one in progress, or a receive in progress, refuses another
(70_reset_and_hazards.md R242, 60_exceptions.md R213, log entry 18). -/
def callSession (op : SessionOp) (s : State) : State :=
  if Busy s then complete .refused s
  else
    match op with
    | .identify => callIdentify s
    | .getParameterValues ids => callGetValues ids s
    | .setParameterValue id value => callSetValue id value s
    | .getLoggingConfiguration => callGetLogConfig s
    | .getLoggedData start stop => callGetLoggedData start stop s
    | .getOperatingState => callGetState s
    | .setOperatingState target => callSetState target s

end Sys2Proof.Machine
end

