-- ==== Sys2Proof/Machine/Events.lean ====
section
/-! DEFINITION. What the transport's and the host's events do (00_scope.md R8, 42_frame.md R105 to
R110, 60_exceptions.md R210, 70_reset_and_hazards.md R230). -/

namespace Sys2Proof.Machine

/-- `Chunk(c)` in RX_WAIT: overflow first, then the terminator test once, on the end of the whole
buffer (42_frame.md R105, R106, R109). -/
def onChunk (c : List Byte) (s : State) : State :=
  if Config.hw.rxbufMax < s.rxbuf.length + c.length then finishReceive (.error .decodeError) s
  else
    let buf := s.rxbuf ++ c
    if terminated s.dialect buf then
      finishReceive (.ok (delivered Config.hw s.dialect buf)) s
    else { s with rxbuf := buf }

/-- `Timeout` in RX_WAIT (R107). -/
def onTimeout (s : State) : State := finishReceive (.error .timeoutError) s

/-- `Disconnect` in RX_WAIT; no connection stands after it (R108). -/
def onDisconnect (s : State) : State :=
  finishReceive (.error .connectionError) { s with link := .closed }

/-- A chunk of the stream goes to the waiting FRAME_RX; a read of no bytes is a Disconnect (R108). In
IDLE the block takes nothing (R110). DESIGN CHOICE, safe (log entry 12): whether a connection stands is
not looked at, so bytes of an ended connection that nobody received may still reach a FRAME_RX issued
with none. -/
def deliverChunk (size : Nat) (s : State) : State :=
  if s.phase = .rxWait then
    match s.residue.take size with
    | [] => onDisconnect s
    | b :: c => onChunk (b :: c) { s with residue := s.residue.drop size }
  else s

/-- An event of the transport. In IDLE the block consumes none: bytes stay in the transport, a
disconnect is met later, a timeout has nothing to end (R110, 60_exceptions.md R210). -/
def transportAct (act : TransportAct) (s : State) : State :=
  match act with
  | .arrive bytes => if s.link = .opened then { s with residue := s.residue ++ bytes } else s
  | .chunk size => deliverChunk size s
  | .timeout => if s.phase = .rxWait then onTimeout s else s
  | .disconnect =>
    if s.phase = .rxWait then onDisconnect s
    else if s.link = .opened then { s with link := .dropped } else s
  | .setReachable on => { s with reachable := on }

/-- The transport's turn: a FRAME_RX that waits on a dropped connection with nothing left to receive
meets the disconnect (60_exceptions.md R210); otherwise nothing happens (70_reset_and_hazards.md R240).
DESIGN CHOICE, unsafe (log entry 12). -/
def transportTurn (s : State) : State :=
  if s.phase = .rxWait ∧ s.link = .dropped ∧ s.residue = [] then onDisconnect s else s

/-- When no event is left: the host goes on with its exchange, in IDLE, and the transport has its
turn, in RX_WAIT (log entry 12). -/
def quietTurn (s : State) : State :=
  match s.phase with
  | .idle => hostTurn s
  | .rxWait => transportTurn s

/-- Reset: PHASE IDLE, RXBUF empty, the straps sampled; a receive is abandoned with no completion,
with the exchange in progress; the transport and the host's choice stay (70_reset_and_hazards.md R230, log
entry 15). -/
def resetBlock (stationId : Byte) (dialect : Dialect) (s : State) : State :=
  { endReceive s with
    stationId := stationId, dialect := dialect, framer := none, session := none }

/-- The host sends bytes by itself (45_session.md R181, 70_reset_and_hazards.md R242). DESIGN CHOICE,
unsafe (log entry 11): a failure while a FRAME_RX waits does not end it. -/
def hostSend (bytes : List Byte) (s : State) : State :=
  match transmit bytes s with
  | some s' => s'
  | none => linkFailure s

/-- The host opens a connection (60_exceptions.md R202, 70_reset_and_hazards.md R231). DESIGN CHOICE,
unsafe (log entry 11): a FRAME_RX that waits with none goes on over the new one, and a failure does not
end it. -/
def hostOpen (s : State) : State :=
  match connect s with
  | some s' => s'
  | none => linkFailure s

/-- The host closes the connection, which ends a receive with ConnectionError (42_frame.md R108).
DESIGN CHOICE, unsafe (log entry 11): a closing in IDLE of a connection the peer has dropped and nobody
has met forgets the drop: nothing fails, and the next exchange opens anew (60_exceptions.md R210 is
silent on a closing in between). -/
def hostClose (s : State) : State :=
  if s.phase = .rxWait then onDisconnect s else { s with link := .closed }

/-- An event of the host beside Issue and wire commands. -/
def hostAct (act : HostAct) (s : State) : State :=
  match act with
  | .call op => callSession op s
  | .proceed => hostTurn s
  | .send bytes => hostSend bytes s
  | .openLink => hostOpen s
  | .closeLink => hostClose s
  | .chooseValidation on => { s with validates := on }
  | .reset stationId dialect => resetBlock stationId dialect s

end Sys2Proof.Machine
end

