-- ==== Sys2Proof/Machine/Fetch.lean ====
section
/-! DEFINITION. Where the next instruction comes from: an Issue or a wire command at the head of the
agenda, or the record a LOG_DECODE in progress is at (00_scope.md R8, 44_logged_data.md R146). -/

namespace Sys2Proof.Machine

/-- The state once the next event of the agenda has been taken. -/
def withAgenda (s : State) (rest : List Event) : State := { s with agenda := rest }

/-- An Issue: the operation of its OPSEL, or Refused (30_encoding.md R64, 60_exceptions.md R213). -/
def issueStep (opsel : BitVec 4) (operands : Operands) (s : State) : Outcome :=
  match decode (.op opsel operands) with
  | .ok i => exec i s
  | .error _ => .next (complete .refused s)

/-- A wire command: the instruction its bytes are (30_encoding.md R61, log entry 17). -/
def commandStep (bytes : List Byte) (s : State) : Outcome :=
  match decode (.command bytes) with
  | .ok i => exec i s
  | .error why => .refused (.undecodable why)

/-- One event of one agent (00_scope.md R8). -/
def eventStep (e : Event) (s : State) : Outcome :=
  match e with
  | .issue opsel operands => issueStep opsel operands s
  | .command bytes => commandStep bytes s
  | .host act => .next (hostAct act s)
  | .transport act => .next (transportAct act s)

/-- A framer whose one record has the given bytes as its slice: the bytes and the margin byte are the
window (log entry 16). -/
def framerAt (bytes : List Byte) : Framer where
  body := bytes ++ [0]
  itemsPerRecord := (bytes.length + 1) / Config.wordBytes
  records := 1
  index := 0
  keys := []
  out := []

/-- What is presented stands where the next step takes it from: an Issue or a wire command at the
head of the agenda with no LOG_DECODE in progress, a record as the one record of a LOG_DECODE in
progress (log entries 1, 6). -/
def present (p : Presented) (s : State) : State :=
  match p with
  | .op opsel operands => { s with framer := none, agenda := .issue opsel operands :: s.agenda }
  | .command bytes => { s with framer := none, agenda := .command bytes :: s.agenda }
  | .record bytes => { s with framer := some (framerAt bytes) }

end Sys2Proof.Machine
end

