-- ==== Sys2Proof/Machine/Step.lean ====
section
/-! DEFINITION. One step: the next record of a LOG_DECODE in progress, or the next event of the
agenda (00_scope.md R8). -/

namespace Sys2Proof.Machine

/-- One step of the system (R8). -/
def step (s : State) : Host.Outcome State Fault Refusal :=
  match s.framer with
  | some f => recordTurn f s
  | none =>
    match s.agenda with
    | [] => .next (quietTurn s)
    | e :: rest => eventStep e (withAgenda s rest)

/-- s with the instruction of a word of the opcode table where the next step takes it from. -/
def State.withFetchWord (s : State) (nbits w : Nat) : State := present (layOut nbits w) s

end Sys2Proof.Machine
end

