-- ==== Sys2Proof/Safety.lean ====
section
/-! DEFINITION. The invariant of the block and of the session around it, in the terms statements
use. -/

namespace Sys2Proof.Machine

/-- What holds of the codec block between steps: outside RX_WAIT RXBUF is empty (10_state.md R16);
RXBUF fits RXBUF_MAX (R16, 42_frame.md R109); a receive that goes on has not seen its terminator
(R105, R106); a LOG_DECODE in progress has a record left and runs in IDLE (10_state.md R15, R17). -/
abbrev BlockInv (s : State) : Prop :=
  (s.phase = .idle → s.rxbuf = []) ∧
  s.rxbuf.length ≤ Config.hw.rxbufMax ∧
  terminated s.dialect s.rxbuf = false ∧
  (∀ f, s.framer = some f → s.phase = .idle ∧ f.index < f.records)

/-- An exchange waits only while a receive is in progress (45_session.md R181). -/
abbrev SessionInv (s : State) : Prop := ∀ k, s.session = some ⟨.waiting, k⟩ → s.phase = .rxWait

/-- The invariant of the machine. -/
abbrev MachineInv (s : State) : Prop := BlockInv s ∧ SessionInv s

/-- What a step may not change: the straps (10_state.md R13, R14). -/
abbrev SameStraps (s t : State) : Prop := t.stationId = s.stationId ∧ t.dialect = s.dialect

/-- The next step is the host's, for the exchange in progress: such an event is next, with the given
events after it, or none is left. -/
abbrev HostIsNext (s : State) (rest : List Event) : Prop :=
  s.framer = none ∧ s.phase = .idle ∧
    (s.agenda = .host .proceed :: rest ∨ (s.agenda = [] ∧ rest = []))

/-- So many steps, one after the other, ending at the first that gives no next state. -/
def steps : Nat → State → Outcome
  | 0, s => .next s
  | n + 1, s =>
    match step s with
    | .next s' => steps n s'
    | .fault r => .fault r
    | .refused r => .refused r

end Sys2Proof.Machine
end

