-- ==== Sys2Proof/Certificates/Slice0/Obligations.lean ====
section
/-! DEFINITION. The statements for the provers, from the numbered rules of spec/. Where a next state is
written out as a record update, every field it does not name is unchanged: that is the frame. -/

open Sys2Proof Sys2Proof.Machine

/-! ### Reset and the straps -/

/-- 10_state.md R21: after reset PHASE is IDLE, RXBUF is empty, no LOG_DECODE is in progress, and the
straps are the ones presented. -/
def Obligations.ResetValues : Prop :=
  ∀ (station : Byte) (dialect : Dialect),
    (State.resetWith station dialect).phase = .idle ∧
    (State.resetWith station dialect).rxbuf = [] ∧
    (State.resetWith station dialect).framer = none ∧
    (State.resetWith station dialect).stationId = station ∧
    (State.resetWith station dialect).dialect = dialect

/-- 70_reset_and_hazards.md, Reset: the reset event, in any phase. That the exchange in progress is
abandoned with the receive is the model's choice (log entry 15). -/
def Obligations.ResetEventAbandonsReceive : Prop :=
  ∀ (s : State) (station : Byte) (dialect : Dialect) (rest : List Event),
    s.framer = none → s.agenda = .host (.reset station dialect) :: rest →
    step s = .next { s with
      agenda := rest, stationId := station, dialect := dialect, phase := .idle, rxbuf := [],
      session := none }

/-- 10_state.md R13, R14: only a reset changes the straps. -/
def Obligations.OnlyResetChangesStraps : Prop :=
  ∀ s t : State, step s = .next t →
    (∀ station dialect rest,
      s.framer = none → s.agenda ≠ .host (.reset station dialect) :: rest) →
    SameStraps s t

/-! ### The operations of the block -/

/-- 40_checksum.md R80: CHECKSUM delivers the exclusive or of all bytes, 0 for none, and changes
nothing. -/
def Obligations.ChecksumDeliversXor : Prop :=
  (∀ (bytes : List Byte) (s : State), s.phase = .idle →
    exec (.checksum bytes) s =
      .next { s with completions := s.completions ++ [.ok (.byte (xorAll bytes))] }) ∧
  xorAll [] = 0 ∧ ∀ (b : Byte) (bs : List Byte), xorAll (b :: bs) = b ^^^ xorAll bs

/-- 40_checksum.md R81 (a), (b), (c). -/
def Obligations.ChecksumLaws : Prop :=
  (∀ a b : List Byte, xorAll (a ++ b) = xorAll a ^^^ xorAll b) ∧
  (∀ x : List Byte, xorAll (xorAll x :: x) = 0 ∧ xorAll (x ++ [xorAll x]) = 0) ∧
  (∀ f : List Byte, 8 ≤ f.length →
    (f[f.length - 2]? = some (xorAll (f.take (f.length - 2))) ↔
      xorAll (f.take (f.length - 1)) = 0))

/-- 41_timestamp.md R85, R86, R87: TS_DECODE delivers the six fields when they are a date and time,
DecodeError otherwise. -/
def Obligations.TsDecodeDeliversFields : Prop :=
  ∀ (raw : Word) (s : State) (year month day hour minute second : Nat), s.phase = .idle →
    second = raw.toNat % 64 → minute = raw.toNat / 2 ^ 6 % 64 → hour = raw.toNat / 2 ^ 12 % 32 →
    day = raw.toNat / 2 ^ 17 % 32 → month = raw.toNat / 2 ^ 22 % 16 →
    year = raw.toNat / 2 ^ 26 + 2000 →
    exec (.tsDecode raw) s = .next { s with completions := s.completions ++ [
      if 1 ≤ month ∧ month ≤ 12 ∧ 1 ≤ day ∧
          day ≤ (if month = 2 then (if 4 ∣ year then 29 else 28)
            else if month ∈ [4, 6, 9, 11] then 30 else 31) ∧
          hour ≤ 23 ∧ minute ≤ 59 ∧ second ≤ 59
      then .ok (.dateTime ⟨year, month, day, hour, minute, second⟩)
      else .err .decodeError] }

/-- 41_timestamp.md R88 to R91: TS_ENCODE fails with RangeError outside 2000 to 2063, then with
InvalidArgument for no date and time, and otherwise delivers the four bytes of the packed value. -/
def Obligations.TsEncodeDeliversBytes : Prop :=
  ∀ (t : DateTime) (s : State), s.phase = .idle →
    (t.year < 2000 ∨ 2063 < t.year →
      exec (.tsEncode t) s =
        .next { s with completions := s.completions ++ [.err .rangeError] }) ∧
    (2000 ≤ t.year → t.year ≤ 2063 → validDateTime t = false →
      exec (.tsEncode t) s =
        .next { s with completions := s.completions ++ [.err .invalidArgument] }) ∧
    (2000 ≤ t.year → t.year ≤ 2063 → validDateTime t = true →
      ∀ v : Nat, v = (t.year - 2000) * 2 ^ 26 + t.month * 2 ^ 22 + t.day * 2 ^ 17 +
          t.hour * 2 ^ 12 + t.minute * 2 ^ 6 + t.second →
        exec (.tsEncode t) s = .next { s with completions := s.completions ++ [.ok (.bytes
          [BitVec.ofNat 8 (v / 2 ^ 24), BitVec.ofNat 8 (v / 2 ^ 16), BitVec.ofNat 8 (v / 2 ^ 8),
            BitVec.ofNat 8 v])] })

/-- 41_timestamp.md, Laws: the round trip in both directions, as what the two operations deliver. -/
def Obligations.TimestampRoundTrip : Prop :=
  (∀ (t : DateTime) (s : State), s.phase = .idle → validDateTime t = true →
    2000 ≤ t.year → t.year ≤ 2063 →
    ∃ bytes : List Byte,
      exec (.tsEncode t) s =
        .next { s with completions := s.completions ++ [.ok (.bytes bytes)] } ∧
      exec (.tsDecode (BitVec.ofNat 32 (beNat bytes))) s =
        .next { s with completions := s.completions ++ [.ok (.dateTime t)] }) ∧
  (∀ (raw : Word) (t : DateTime) (s : State), s.phase = .idle →
    exec (.tsDecode raw) s =
      .next { s with completions := s.completions ++ [.ok (.dateTime t)] } →
    exec (.tsEncode t) s =
      .next { s with completions := s.completions ++ [.ok (.bytes (be32 raw))] })

/-- 42_frame.md R100, R101, R102, R103: FRAME_BUILD delivers the frame of any command under
CFG.STATION_ID, byte by byte, or RangeError when msg_data does not fit LENGTH. -/
def Obligations.FrameBuildDeliversFrame : Prop :=
  ∀ (command : Byte) (parameterId : Word) (payload msgData head : List Byte) (s : State),
    s.phase = .idle →
    msgData = (if parameterId = 0 then [] else
      [BitVec.ofNat 8 (parameterId.toNat / 2 ^ 24), BitVec.ofNat 8 (parameterId.toNat / 2 ^ 16),
        BitVec.ofNat 8 (parameterId.toNat / 2 ^ 8), BitVec.ofNat 8 parameterId.toNat]) ++ payload →
    head = [0x02, s.stationId, command, 0x03, BitVec.ofNat 8 (msgData.length / 256),
      BitVec.ofNat 8 msgData.length] ++ msgData →
    exec (.frameBuild command parameterId payload) s =
      .next { s with completions := s.completions ++ [
        if 65535 < msgData.length then .err .rangeError
        else .ok (.bytes (head ++ [xorAll head, 0x04]))] }

/-- 42_frame.md R111, R112: FRAME_VALIDATE delivers station id, command and msg_data of a well-formed
frame, DecodeError for any other bytes, and compares neither station nor command. -/
def Obligations.FrameValidateChecksFourConditions : Prop :=
  (∀ (station command : Byte) (msgData head : List Byte) (s : State), s.phase = .idle →
    msgData.length ≤ 65535 →
    head = [0x02, station, command, 0x03, BitVec.ofNat 8 (msgData.length / 256),
      BitVec.ofNat 8 msgData.length] ++ msgData →
    exec (.frameValidate (head ++ [xorAll head, 0x04])) s =
      .next { s with completions := s.completions ++ [.ok (.frame ⟨station, command, msgData⟩)] }) ∧
  (∀ (frame : List Byte) (s : State), s.phase = .idle →
    ¬ (8 ≤ frame.length ∧ frame[0]? = some 0x02 ∧ frame[3]? = some 0x03 ∧
      frame[frame.length - 1]? = some 0x04 ∧
      (frame.getD 4 0).toNat * 256 + (frame.getD 5 0).toNat = frame.length - 8 ∧
      frame[frame.length - 2]? = some (xorAll (frame.take (frame.length - 2)))) →
    exec (.frameValidate frame) s =
      .next { s with completions := s.completions ++ [.err .decodeError] })

/-- 42_frame.md R115: what FRAME_BUILD builds FRAME_VALIDATE takes apart, and what FRAME_VALIDATE
accepts FRAME_BUILD builds again. -/
def Obligations.BuildAndValidateAgree : Prop :=
  (∀ (command : Byte) (parameterId : Word) (payload frame : List Byte) (s : State),
    s.phase = .idle →
    exec (.frameBuild command parameterId payload) s =
      .next { s with completions := s.completions ++ [.ok (.bytes frame)] } →
    exec (.frameValidate frame) s =
      .next { s with completions := s.completions ++
        [.ok (.frame ⟨s.stationId, command, requestData parameterId payload⟩)] }) ∧
  (∀ (frame : List Byte) (parts : FrameParts) (s : State), s.phase = .idle →
    exec (.frameValidate frame) s =
      .next { s with completions := s.completions ++ [.ok (.frame parts)] } →
    s.stationId = parts.station →
    exec (.frameBuild parts.command 0 parts.msgData) s =
      .next { s with completions := s.completions ++ [.ok (.bytes frame)] })

/-- 70_reset_and_hazards.md, hazard of the early end: FRAME_VALIDATE rejects every proper prefix of a
well-formed frame. -/
def Obligations.ValidateRejectsProperPrefixes : Prop :=
  ∀ (frame : List Byte) (parts : FrameParts) (k : Nat) (s : State), s.phase = .idle →
    exec (.frameValidate frame) s =
      .next { s with completions := s.completions ++ [.ok (.frame parts)] } →
    k < frame.length →
    exec (.frameValidate (frame.take k)) s =
      .next { s with completions := s.completions ++ [.err .decodeError] }

/-- 42_frame.md, corner cases of FRAME_VALIDATE: a well-formed frame with one byte before its EOT
changed is rejected. -/
def Obligations.ValidateRejectsOneChangedByte : Prop :=
  ∀ (frame : List Byte) (parts : FrameParts) (k : Nat) (b : Byte) (s : State), s.phase = .idle →
    exec (.frameValidate frame) s =
      .next { s with completions := s.completions ++ [.ok (.frame parts)] } →
    k < frame.length - 1 → frame[k]? ≠ some b →
    exec (.frameValidate (frame.set k b)) s =
      .next { s with completions := s.completions ++ [.err .decodeError] }

/-- 43_response_decoder.md R130, R132: RESP_DECODE delivers LENGTH / 4 signed integers, element k the
word at offset 6 + 4k, exactly when the buffer holds them, and DecodeError otherwise. -/
def Obligations.RespDecodeDeliversSignedWords : Prop :=
  ∀ (response : List Byte) (s : State) (n : Nat), s.phase = .idle →
    n = ((response.getD 4 0).toNat * 256 + (response.getD 5 0).toNat) / 4 →
    (6 ≤ response.length ∧ 6 + 4 * n ≤ response.length →
      ∃ ints : List Int, ints.length = n ∧
        (∀ k < n, ints[k]? = some (BitVec.toInt
          (response.getD (6 + 4 * k) 0 ++ response.getD (7 + 4 * k) 0 ++
            response.getD (8 + 4 * k) 0 ++ response.getD (9 + 4 * k) 0))) ∧
        exec (.respDecode response) s =
          .next { s with completions := s.completions ++ [.ok (.ints ints)] }) ∧
    (¬ (6 ≤ response.length ∧ 6 + 4 * n ≤ response.length) →
      exec (.respDecode response) s =
        .next { s with completions := s.completions ++ [.err .decodeError] })

/-- 43_response_decoder.md, what RESP_DECODE does not validate: the four bytes before LENGTH do not
matter, nor anything after the last word it reads. -/
def Obligations.RespDecodeIgnoresHeaderAndTail : Prop :=
  ∀ (header header' len words tail tail' : List Byte) (s : State),
    header.length = 4 → header'.length = 4 → len.length = 2 → words.length = 4 * (beNat len / 4) →
    exec (.respDecode (header ++ len ++ words ++ tail)) s =
      exec (.respDecode (header' ++ len ++ words ++ tail')) s

/-- 44_logged_data.md, Operands and steps 1 to 4: no records for a response whose command byte is not
7 or that has none; DecodeError for a body of fewer than 16 bytes or no length field; no records,
with nothing else read, for fewer words than one record has. -/
def Obligations.LogDecodeWithoutRecords : Prop :=
  ∀ (response : List Byte) (s : State) (n fields : Nat), s.phase = .idle → s.framer = none →
    n = ((response.getD 4 0).toNat * 256 + (response.getD 5 0).toNat) / 4 →
    fields = beNat ((response.drop 18).take 4) →
    (response[2]? ≠ some 7 →
      exec (.logDecode response) s =
        .next { s with completions := s.completions ++ [.ok (.records [])] }) ∧
    (response[2]? = some 7 → response.length < 24 →
      exec (.logDecode response) s =
        .next { s with completions := s.completions ++ [.err .decodeError] }) ∧
    (response[2]? = some 7 → 24 ≤ response.length → n < fields + 4 →
      exec (.logDecode response) s =
        .next { s with completions := s.completions ++ [.ok (.records [])] })

/-- 44_logged_data.md R159 (b): a response that announces a record and opens with a header record
whose count is the field count of the response fails, whatever follows, since the slice is one byte
short. -/
def Obligations.LogDecodeHeaderFirstFails : Prop :=
  ∀ (response : List Byte) (s : State) (n fields : Nat), s.phase = .idle → s.framer = none →
    response[2]? = some 7 → 24 ≤ response.length →
    n = ((response.getD 4 0).toNat * 256 + (response.getD 5 0).toNat) / 4 →
    fields = beNat ((response.drop 18).take 4) → fields + 4 ≤ n →
    response[6]? = some 1 →
    exec (.logDecode response) s =
      .next { s with completions := s.completions ++ [.err .decodeError] }

/-- 44_logged_data.md R158: the records LOG_DECODE executes one after the other deliver what the whole
algorithm delivers, in one step, and nothing of what it keeps outlasts the operation. -/
def Obligations.LogDecodeIsTheWholeAlgorithm : Prop :=
  ∀ (response : List Byte) (s : State), s.phase = .idle → s.framer = none →
    exec (.logDecode response) s =
      .next { s with completions := s.completions ++
        [.ofResult .records (logDecode Config.hw response)] }

/-- 10_state.md R12, R17, 44_logged_data.md R142 to R144, R152: the one step of LOG_DECODE is its record
steps run to the end, from record 0 of the body `response[6 : -2]` with no active key and no output; the
number of records is rounded down, so a partial trailing record is dropped. At most one step for each
record. -/
def Obligations.LogDecodeRefinedByRecordSteps : Prop :=
  ∀ (response : List Byte) (s : State) (n fields : Nat) (f : Framer),
    s.phase = .idle → s.framer = none → response[2]? = some 7 → 24 ≤ response.length →
    n = ((response.getD 4 0).toNat * 256 + (response.getD 5 0).toNat) / 4 →
    fields = beNat ((response.drop 18).take 4) → fields + 4 ≤ n →
    f = { body := (response.drop 6).take (response.length - 8), itemsPerRecord := fields + 4,
          records := n / (fields + 4), index := 0, keys := [], out := [] } →
    ∃ k ≤ f.records, steps k { s with framer := some f } = exec (.logDecode response) s

/-- 42_frame.md, FRAME_RX: its issue in IDLE. -/
def Obligations.FrameRxBeginsReceive : Prop :=
  ∀ s : State, s.phase = .idle →
    exec .frameRx s = .next { s with phase := .rxWait, rxbuf := [] }

/-- 20_memory.md R40, 42_frame.md R113: the seven operations beside FRAME_RX complete in their step
and change nothing but what the host has received; what they deliver depends on their operands alone,
for FRAME_BUILD on CFG.STATION_ID too, and never on DIALECT. -/
def Obligations.PureOperationsDependOnOperands : Prop :=
  (∀ i : Instr, i matches .checksum _ | .tsDecode _ | .tsEncode _ | .frameValidate _
      | .respDecode _ | .logDecode _ →
    ∃ c : Completion, c ≠ .refused ∧ ∀ s : State, s.phase = .idle → s.framer = none →
      exec i s = .next { s with completions := s.completions ++ [c] }) ∧
  (∀ (command : Byte) (parameterId : Word) (payload : List Byte) (station : Byte),
    ∃ c : Completion, c ≠ .refused ∧
      ∀ s : State, s.phase = .idle → s.stationId = station →
        exec (.frameBuild command parameterId payload) s =
          .next { s with completions := s.completions ++ [c] })

/-- 60_exceptions.md R213: an Issue in RX_WAIT, and an Issue with OPSEL 8 to 15 in either phase, is
Refused; nothing else changes and no transport event is consumed. -/
def Obligations.IssueRefused : Prop :=
  ∀ (s : State) (opsel : BitVec 4) (operands : Operands) (rest : List Event),
    s.framer = none → s.agenda = .issue opsel operands :: rest →
    s.phase = .rxWait ∨ 8 ≤ opsel.toNat →
    step s = .next { s with agenda := rest, completions := s.completions ++ [.refused] }

/-- 30_encoding.md R64: OPSEL 0 to 7 select the eight operations, which take their operands from the
Issue; OPSEL 8 to 15 select none. -/
def Obligations.OpselSelectsOperation : Prop :=
  ∀ o : Operands,
    decode (.op 0 o) = .ok (.checksum o.bytes) ∧ decode (.op 1 o) = .ok (.tsDecode o.word) ∧
    decode (.op 2 o) = .ok (.tsEncode o.dateTime) ∧
    decode (.op 3 o) = .ok (.frameBuild o.command o.word o.bytes) ∧
    decode (.op 4 o) = .ok .frameRx ∧ decode (.op 5 o) = .ok (.frameValidate o.bytes) ∧
    decode (.op 6 o) = .ok (.respDecode o.bytes) ∧ decode (.op 7 o) = .ok (.logDecode o.bytes) ∧
    ∀ opsel : BitVec 4, 8 ≤ opsel.toNat →
      decode (.op opsel o) = .error (.reservedOpsel opsel)

/-- 00_scope.md R9, 60_exceptions.md R200, R212: no instruction stops the machine; each leads to a
next state in every state. -/
def Obligations.NoInstructionStops : Prop :=
  ∀ (i : Instr) (s : State), ∃ t : State, exec i s = .next t

/-! ### Receiving -/

/-- 42_frame.md R105: BINARY. A chunk completes the receive exactly when the accumulated buffer then
ends with 0x04, and delivers the whole buffer (to an exchange that waits for it: ResponseIsDecoded);
otherwise the receive goes on, whoever waits for it. -/
def Obligations.BinaryChunk : Prop :=
  ∀ (s : State) (size : Nat) (rest : List Event) (chunk : List Byte),
    s.framer = none → s.agenda = .transport (.chunk size) :: rest → s.phase = .rxWait →
    s.dialect = .binary → chunk = s.residue.take size → chunk ≠ [] →
    s.rxbuf.length + chunk.length ≤ Config.hw.rxbufMax →
    (chunk.getLast? = some 0x04 → (∀ k, s.session ≠ some ⟨.waiting, k⟩) →
      step s = .next { s with
        agenda := rest, residue := s.residue.drop size, phase := .idle, rxbuf := [],
        completions := s.completions ++ [.ok (.bytes (s.rxbuf ++ chunk))] }) ∧
    (chunk.getLast? ≠ some 0x04 →
      step s = .next { s with
        agenda := rest, residue := s.residue.drop size, rxbuf := s.rxbuf ++ chunk })

/-- 42_frame.md R106: LEGACY. A chunk completes the receive exactly when the accumulated buffer then
ends with CR LF or CR LF LF, and delivers it without its trailing white space (to an exchange that
waits for it: ResponseIsDecoded); otherwise the receive goes on, whoever waits for it. -/
def Obligations.LegacyChunk : Prop :=
  ∀ (s : State) (size : Nat) (rest : List Event) (chunk line blanks : List Byte),
    s.framer = none → s.agenda = .transport (.chunk size) :: rest → s.phase = .rxWait →
    s.dialect = .legacy → chunk = s.residue.take size → chunk ≠ [] →
    s.rxbuf.length + chunk.length ≤ Config.hw.rxbufMax →
    ([0x0D, 0x0A] <:+ s.rxbuf ++ chunk ∨ [0x0D, 0x0A, 0x0A] <:+ s.rxbuf ++ chunk →
      s.rxbuf ++ chunk = line ++ blanks →
      (∀ b ∈ blanks, b ∈ ([0x09, 0x0A, 0x0B, 0x0C, 0x0D, 0x20] : List Byte)) →
      (∀ b, line.getLast? = some b →
        b ∉ ([0x09, 0x0A, 0x0B, 0x0C, 0x0D, 0x20] : List Byte)) →
      (∀ k, s.session ≠ some ⟨.waiting, k⟩) →
      step s = .next { s with
        agenda := rest, residue := s.residue.drop size, phase := .idle, rxbuf := [],
        completions := s.completions ++ [.ok (.bytes line)] }) ∧
    (¬ ([0x0D, 0x0A] <:+ s.rxbuf ++ chunk ∨ [0x0D, 0x0A, 0x0A] <:+ s.rxbuf ++ chunk) →
      step s = .next { s with
        agenda := rest, residue := s.residue.drop size, rxbuf := s.rxbuf ++ chunk })

/-- 42_frame.md R109: a chunk that does not fit RXBUF_MAX completes the receive with DecodeError,
whatever it ends with; the buffer is discarded. An exchange that waits for the receive ends with the
same error (60_exceptions.md R212). -/
def Obligations.OverflowIsDecodeError : Prop :=
  ∀ (s : State) (size : Nat) (rest : List Event) (chunk : List Byte),
    s.framer = none → s.agenda = .transport (.chunk size) :: rest → s.phase = .rxWait →
    chunk = s.residue.take size → chunk ≠ [] →
    Config.hw.rxbufMax < s.rxbuf.length + chunk.length →
    step s = .next { s with
      agenda := rest, residue := s.residue.drop size, phase := .idle, rxbuf := [],
      session := (match s.session with
        | some ⟨.waiting, _⟩ => none
        | x => x)
      completions := s.completions ++ [.err .decodeError] }

/-- 42_frame.md R107, 60_exceptions.md R212: a Timeout completes the receive with TimeoutError,
whatever had arrived, and ends an exchange that waits for it with that error alone. -/
def Obligations.TimeoutIsTimeoutError : Prop :=
  ∀ (s : State) (rest : List Event),
    s.framer = none → s.agenda = .transport .timeout :: rest → s.phase = .rxWait →
    step s = .next { s with
      agenda := rest, phase := .idle, rxbuf := [],
      session := (match s.session with
        | some ⟨.waiting, _⟩ => none
        | x => x)
      completions := s.completions ++ [.err .timeoutError] }

/-- 42_frame.md R108, 60_exceptions.md R212: a Disconnect, a read of no bytes, and the host closing
the transport each complete the receive with ConnectionError and end an exchange that waits for it with
that error alone; that no connection stands then is the model's state (log entry 11). -/
def Obligations.DisconnectIsConnectionError : Prop :=
  ∀ (s : State) (e : Event) (rest : List Event),
    s.framer = none → s.agenda = e :: rest → s.phase = .rxWait →
    e = .transport .disconnect ∨ e = .host .closeLink ∨
      (∃ size, e = .transport (.chunk size) ∧ s.residue.take size = []) →
    step s = .next { s with
      agenda := rest, phase := .idle, rxbuf := [], link := .closed,
      session := (match s.session with
        | some ⟨.waiting, _⟩ => none
        | x => x)
      completions := s.completions ++ [.err .connectionError] }

/-- 42_frame.md R110 and 60_exceptions.md R210: in IDLE no transport event reaches the block or the
host, and bytes the transport holds or receives stay there in order. -/
def Obligations.IdleConsumesNoTransportEvent : Prop :=
  ∀ (s t : State) (act : TransportAct) (rest : List Event),
    s.framer = none → s.agenda = .transport act :: rest → s.phase = .idle → step s = .next t →
    t.phase = .idle ∧ t.rxbuf = s.rxbuf ∧ SameStraps s t ∧ t.framer = none ∧
    t.session = s.session ∧ t.completions = s.completions ∧ t.sent = s.sent ∧
    t.agenda = rest ∧
    t.residue = s.residue ++ (match act with
      | .arrive bytes => if s.link = .opened then bytes else []
      | _ => [])

/-- 60_exceptions.md R210: a disconnect in IDLE is met by the host's next send, its own or an
exchange's, or by the next FRAME_RX once it has received what is left, as a ConnectionError. That no
connection stands then is the model's state (log entry 11); that the waiting FRAME_RX meets the
disconnect when no event is left is the model's choice of the moment (log entry 12). -/
def Obligations.DroppedConnectionIsMet : Prop :=
  (∀ (s : State) (rest : List Event), s.framer = none →
    s.agenda = .transport .disconnect :: rest → s.phase = .idle → s.link = .opened →
    step s = .next { s with agenda := rest, link := .dropped }) ∧
  (∀ (s : State) (bytes : List Byte) (rest : List Event), s.framer = none →
    s.agenda = .host (.send bytes) :: rest → s.link = .dropped →
    step s = .next { s with
      agenda := rest, link := .closed,
      completions := s.completions ++ [.err .connectionError] }) ∧
  (∀ (s : State) (request : List Byte) (k : Await) (rest : List Event), HostIsNext s rest →
    s.session = some ⟨.send request, k⟩ → s.link = .dropped →
    step s = .next { s with
      agenda := rest, link := .closed, session := none,
      completions := s.completions ++ [.err .connectionError] }) ∧
  (∀ s : State, s.framer = none → s.agenda = [] → s.phase = .rxWait → s.link = .dropped →
    s.residue = [] →
    step s = .next { s with
      phase := .idle, rxbuf := [], link := .closed,
      session := (match s.session with
        | some ⟨.waiting, _⟩ => none
        | x => x)
      completions := s.completions ++ [.err .connectionError] })

/-- 20_memory.md R42, BINARY: a chunk that fits drops, doubles and reorders no byte of the stream,
whether the host or an exchange receives it. -/
def Obligations.StreamKeepsEveryByteInOrder : Prop :=
  ∀ (s t : State) (size : Nat) (rest : List Event),
    s.framer = none → s.agenda = .transport (.chunk size) :: rest → s.phase = .rxWait →
    s.dialect = .binary → s.residue.take size ≠ [] →
    s.rxbuf.length + (s.residue.take size).length ≤ Config.hw.rxbufMax → step s = .next t →
    (t.phase = .rxWait ∧ t.completions = s.completions ∧ t.session = s.session ∧
      t.rxbuf ++ t.residue = s.rxbuf ++ s.residue) ∨
    (∃ bytes, t.phase = .idle ∧ bytes ++ t.residue = s.rxbuf ++ s.residue ∧
      (t.completions = s.completions ++ [.ok (.bytes bytes)] ∨
        ∃ k, t.session = some ⟨.validate bytes, k⟩ ∨ t.session = some ⟨.decode bytes, k⟩))

/-! ### Records -/

/-- 44_logged_data.md R147, R155: a header record of a LOG_DECODE in progress, n ids in its slice. -/
def Obligations.HeaderRecordReplacesKeys : Prop :=
  (∀ (s : State) (f : Framer) (fixed tail : List Byte) (n : Word) (ids : List Word),
    s.framer = some f → fixed.length = 11 → ids.length = n.toNat →
    exec (.recHeader (fixed ++ be32 n ++ be32s ids ++ tail)) s = .next (
      if f.index + 1 < f.records then
        { s with framer := some { f with keys := ids, index := f.index + 1 } }
      else
        { s with framer := none, completions := s.completions ++ [.ok (.records f.out)] })) ∧
  (∀ (s : State) (f : Framer) (rest : List Byte), s.framer = some f →
    rest.length < 15 ∨ rest.length < 15 + 4 * beNat ((rest.drop 11).take 4) →
    exec (.recHeader rest) s =
      .next { s with framer := none, completions := s.completions ++ [.err .decodeError] })

/-- 44_logged_data.md R148, R149, R150, R153: a data record of a LOG_DECODE in progress appends one
record: the first min(n, keys) keys, a float pattern for a key above 1000, nothing for another, whose
slot is not read. -/
def Obligations.DataRecordAppendsRecord : Prop :=
  ∀ (s : State) (f : Framer) (fixed slots : List Byte) (raw interval n : Word) (t : DateTime)
      (pairs : List (Word × FieldValue)),
    s.framer = some f → fixed.length = 3 → Machine.tsDecode raw = .ok t →
    (∀ (k : Nat) (key : Word), (f.keys.take n.toNat)[k]? = some key → 1000 < key.toNat →
      4 * k + 4 ≤ slots.length) →
    pairs.length = min n.toNat f.keys.length →
    (∀ (k : Nat) (key : Word), (f.keys.take n.toNat)[k]? = some key →
      pairs[k]? = some (key, if 1000 < key.toNat then
        .float (slots.getD (4 * k) 0 ++ slots.getD (4 * k + 1) 0 ++ slots.getD (4 * k + 2) 0 ++
          slots.getD (4 * k + 3) 0) else .empty)) →
    exec (.recData (fixed ++ be32 raw ++ be32 interval ++ be32 n ++ slots)) s = .next (
      if f.index + 1 < f.records then
        { s with framer := some { f with
          out := f.out ++ [⟨pairs, t, interval⟩], index := f.index + 1 } }
      else
        { s with
          framer := none
          completions := s.completions ++ [.ok (.records (f.out ++ [⟨pairs, t, interval⟩]))] })

/-- 44_logged_data.md R150, R155: a data record too short for its fixed words, with an invalid
timestamp, or with a float slot outside its slice fails the whole LOG_DECODE. -/
def Obligations.DataRecordFailures : Prop :=
  (∀ (s : State) (f : Framer) (rest : List Byte), s.framer = some f → rest.length < 15 →
    exec (.recData rest) s =
      .next { s with framer := none, completions := s.completions ++ [.err .decodeError] }) ∧
  (∀ (s : State) (f : Framer) (fixed slots : List Byte) (raw interval n : Word),
    s.framer = some f → fixed.length = 3 →
    Machine.tsDecode raw = .error .decodeError ∨
      (∃ (k : Nat) (key : Word), (f.keys.take n.toNat)[k]? = some key ∧ 1000 < key.toNat ∧
        slots.length < 4 * k + 4) →
    exec (.recData (fixed ++ be32 raw ++ be32 interval ++ be32 n ++ slots)) s =
      .next { s with framer := none, completions := s.completions ++ [.err .decodeError] })

/-- A record decoded by itself (the model's choice, log entry 6): refused in RX_WAIT like an
operation; in IDLE a header record with its ids delivers no record. -/
def Obligations.RecordByItself : Prop :=
  (∀ (s : State) (rest : List Byte), s.framer = none → s.phase = .rxWait →
    exec (.recHeader rest) s = .next { s with completions := s.completions ++ [.refused] } ∧
    exec (.recData rest) s = .next { s with completions := s.completions ++ [.refused] }) ∧
  (∀ (s : State) (fixed tail : List Byte) (n : Word) (ids : List Word),
    s.framer = none → s.phase = .idle → fixed.length = 11 → ids.length = n.toNat →
    exec (.recHeader (fixed ++ be32 n ++ be32s ids ++ tail)) s =
      .next { s with completions := s.completions ++ [.ok (.records [])] }) ∧
  (∀ (s : State) (fixed slots : List Byte) (raw interval n : Word) (t : DateTime),
    s.framer = none → s.phase = .idle → fixed.length = 3 → Machine.tsDecode raw = .ok t →
    exec (.recData (fixed ++ be32 raw ++ be32 interval ++ be32 n ++ slots)) s =
      .next { s with completions := s.completions ++ [.ok (.records [⟨[], t, interval⟩])] })

/-- 44_logged_data.md R154: a slice whose byte 0 is neither 0 nor 1 fails the LOG_DECODE in progress;
so does an empty slice. -/
def Obligations.OtherRecordTypeFails : Prop :=
  ∀ (s : State) (f : Framer), s.framer = some f →
    (f.currentSlice Config.hw)[0]? ≠ some 0 → (f.currentSlice Config.hw)[0]? ≠ some 1 →
    step s = .next { s with framer := none, completions := s.completions ++ [.err .decodeError] }

/-- 44_logged_data.md R145: slice i has the bytes of its window less the last one, when the body
holds the window. -/
def Obligations.RecordSliceIsOneByteShort : Prop :=
  ∀ (f : Framer) (before window after : List Byte) (last : Byte),
    f.body = before ++ window ++ [last] ++ after →
    before.length = f.index * (4 * f.itemsPerRecord) →
    window.length + 1 = 4 * f.itemsPerRecord →
    f.currentSlice Config.hw = window

/-! ### A step runs what is presented -/

/-- A step runs the instruction that is presented: an Issue or a wire command is taken off the agenda
and the instruction it decodes to is executed; with a LOG_DECODE in progress the record its slice
decodes to is executed and the agenda waits. Bytes of a wire command that are no instruction are
refused by name (the model's choice, log entry 17). -/
def Obligations.StepRunsDecodedInstruction : Prop :=
  (∀ (s : State) (opsel : BitVec 4) (operands : Operands) (rest : List Event) (i : Instr),
    s.framer = none → s.agenda = .issue opsel operands :: rest →
    decode (.op opsel operands) = .ok i → step s = exec i { s with agenda := rest }) ∧
  (∀ (s : State) (bytes : List Byte) (rest : List Event) (i : Instr),
    s.framer = none → s.agenda = .command bytes :: rest →
    decode (.command bytes) = .ok i → step s = exec i { s with agenda := rest }) ∧
  (∀ (s : State) (bytes : List Byte) (rest : List Event) (why : Reject),
    s.framer = none → s.agenda = .command bytes :: rest →
    decode (.command bytes) = .error why → step s = .refused (.undecodable why)) ∧
  (∀ (s : State) (f : Framer) (i : Instr), s.framer = some f →
    decode (fetchRecord f) = .ok i → step s = exec i s)

/-! ### Encoding -/

/-- Decoding what the encoder writes gives the instruction back, for every well-formed instruction. -/
def Obligations.DecodeOfEncode : Prop :=
  ∀ i : Instr, i.wf = true → decode (encode i) = .ok i

/-- The bytes of a wire command or of a record have one meaning: what they decode to is well formed
and encodes to them. -/
def Obligations.EncodeOfDecode : Prop :=
  (∀ (bytes : List Byte) (i : Instr), decode (.command bytes) = .ok i →
    i.wf = true ∧ encode i = .command bytes) ∧
  (∀ (bytes : List Byte) (i : Instr), decode (.record bytes) = .ok i →
    i.wf = true ∧ encode i = .record bytes)

/-- Words of the opcode table, one of each format, decode to their rows' instructions. -/
def Obligations.TableWordsDecode : Prop :=
  decodeTableWord 4 0x3 = some (.frameBuild 0 0 []) ∧
  decodeTableWord 32 0x02050103 = some (.getId 5) ∧
  decodeTableWord 32 0x02FF0503 = some (.setValue 255 0 0) ∧
  decodeTableWord 32 0x02050203 = none ∧
  decodeTableWord 8 0x01 = some (.recHeader (List.replicate 18 0)) ∧
  decodeTableWord 16 0x4944 = some (.legacyId []) ∧
  decodeTableWord 16 0x5649 = some (.legacyVi [] 0) ∧
  decodeTableWord 4 0xC = none

/-! ### Wire commands -/

/-- 45_session.md R181, 30_encoding.md R61: in a BINARY session with a connection that stands or can
be opened, each of the five wire commands sends its whole frame, byte by byte, and FRAME_RX is to be
issued next, for the decoder of its response. That the frame's own station byte is sent, whatever
CFG.STATION_ID is, is the model's reading (log entry 9); that a new connection begins with nothing to
receive is its choice (log entry 11). -/
def Obligations.WireCommandsSendTheirFrame : Prop :=
  ∀ (s : State) (station : Byte), s.phase = .idle → s.session = none → s.dialect = .binary →
    s.link = .opened ∨ (s.link = .closed ∧ s.reachable = true) →
    ∀ after : List Byte → Await → State,
    (∀ bytes k, after bytes k = { s with
      link := .opened, residue := if s.link = .opened then s.residue else [],
      sent := s.sent ++ bytes, session := some ⟨.receive, k⟩ }) →
    exec (.getId station) s =
      .next (after [0x02, station, 1, 0x03, 0, 0, 2 ^^^ station ^^^ 1 ^^^ 3, 0x04] .words) ∧
    exec (.getLogConfig station) s =
      .next (after [0x02, station, 6, 0x03, 0, 0, 2 ^^^ station ^^^ 6 ^^^ 3, 0x04] .words) ∧
    (∀ (id value : Word) (head : List Byte),
      head = [0x02, station, 5, 0x03, 0, 8] ++ be32 id ++ be32 value →
      exec (.setValue station id value) s =
        .next (after (head ++ [xorAll head, 0x04]) .words)) ∧
    (∀ (start stop : Word) (head : List Byte),
      head = [0x02, station, 7, 0x03, 0, 8] ++ be32 start ++ be32 stop →
      exec (.getLoggedData station start stop) s =
        .next (after (head ++ [xorAll head, 0x04]) .records)) ∧
    (∀ (ids : List Word) (head : List Byte), 4 * ids.length ≤ 65535 →
      head = [0x02, station, 4, 0x03, BitVec.ofNat 8 (4 * ids.length / 256),
        BitVec.ofNat 8 (4 * ids.length)] ++ ids.flatMap be32 →
      exec (.getValues station ids) s =
        .next (after (head ++ [xorAll head, 0x04]) .words))

/-- 45_session.md R183, 30_encoding.md R60: in a LEGACY session each legacy line is sent as its
letters, its text and one CR, and FRAME_RX is to be issued next. That a new connection begins with
nothing to receive is the model's choice (log entry 11). -/
def Obligations.LegacyLinesAreSent : Prop :=
  ∀ (s : State) (text : List Byte), s.phase = .idle → s.session = none → s.dialect = .legacy →
    s.link = .opened ∨ (s.link = .closed ∧ s.reachable = true) →
    ∀ after : List Byte → State,
    (∀ bytes, after bytes = { s with
      link := .opened, residue := if s.link = .opened then s.residue else [],
      sent := s.sent ++ bytes, session := some ⟨.receive, .text⟩ }) →
    exec (.legacyId text) s = .next (after ([0x49, 0x44] ++ text ++ [0x0D])) ∧
    (∀ tens units : Nat, tens < 10 → units < 10 →
      exec (.legacyVi text (10 * tens + units)) s =
        .next (after ([0x56, 0x49] ++ text ++
          [BitVec.ofNat 8 (0x30 + tens), BitVec.ofNat 8 (0x30 + units), 0x0D])))

/-- Where wire commands do not send: Refused while a receive or an exchange is in progress
(70_reset_and_hazards.md R242; that the command is Refused is the model's reading, log entry 18);
UnsupportedOperation in a session of the other dialect (the model's choice for a single command, log
entry 10); ConnectionError when the connection was dropped or cannot be opened, after which none stands
(log entry 11); RangeError for more ids than LENGTH holds, before the connection is looked at (log entry
18). Nothing is sent in any of them. -/
def Obligations.WireCommandsTurnedAway : Prop :=
  (∀ (i : Instr) (dialect : Dialect) (s : State),
    (dialect = .binary ∧ (i matches .getId _ | .getValues _ _ | .setValue _ _ _ | .getLogConfig _
      | .getLoggedData _ _ _)) ∨
    (dialect = .legacy ∧ (i matches .legacyId _ | .legacyVi _ _)) →
    (s.phase = .rxWait ∨ s.session ≠ none →
      exec i s = .next { s with completions := s.completions ++ [.refused] }) ∧
    (s.phase = .idle → s.session = none → s.dialect ≠ dialect →
      exec i s = .next { s with completions := s.completions ++ [.err .unsupportedOperation] }) ∧
    (s.phase = .idle → s.session = none → s.dialect = dialect → i.wf = true →
      s.link = .dropped ∨ (s.link = .closed ∧ s.reachable = false) →
      exec i s = .next { s with
        link := .closed, completions := s.completions ++ [.err .connectionError] })) ∧
  (∀ (s : State) (station : Byte) (ids : List Word), s.phase = .idle → s.session = none →
    s.dialect = .binary → 65535 < 4 * ids.length →
    exec (.getValues station ids) s =
      .next { s with completions := s.completions ++ [.err .rangeError] })

/-! ### The session -/

/-- 45_session.md R181, 60_exceptions.md R202, R212, 00_scope.md R8: the steps of an exchange, each a
step of the machine when the host is next. FRAME_BUILD under CFG.STATION_ID, byte by byte, or its
RangeError; the send, over a connection that stands or is opened for it, or ConnectionError; the issue
of FRAME_RX; FRAME_VALIDATE, or its DecodeError. An error ends the exchange. In RX_WAIT, and with no
exchange in progress, the host's turn does nothing. What a new or a failed connection leaves is the
model's choice (log entry 11), as is the moment of the host's turn (log entry 12). -/
def Obligations.ExchangeSteps : Prop :=
  (∀ (s : State) (rest : List Event) (k : Await), HostIsNext s rest →
    (∀ (command : Byte) (parameterId : Word) (payload msgData head : List Byte),
      s.session = some ⟨.build command parameterId payload, k⟩ →
      msgData = (if parameterId = 0 then [] else be32 parameterId) ++ payload →
      head = [0x02, s.stationId, command, 0x03, BitVec.ofNat 8 (msgData.length / 256),
        BitVec.ofNat 8 msgData.length] ++ msgData →
      step s = .next (
        if 65535 < msgData.length then
          { s with
            agenda := rest, session := none, completions := s.completions ++ [.err .rangeError] }
        else { s with agenda := rest, session := some ⟨.send (head ++ [xorAll head, 0x04]), k⟩ })) ∧
    (∀ request : List Byte, s.session = some ⟨.send request, k⟩ →
      (s.link = .opened ∨ (s.link = .closed ∧ s.reachable = true) →
        step s = .next { s with
          agenda := rest, link := .opened, residue := if s.link = .opened then s.residue else [],
          sent := s.sent ++ request, session := some ⟨.receive, k⟩ }) ∧
      (s.link = .closed ∧ s.reachable = false →
        step s = .next { s with
          agenda := rest, session := none,
          completions := s.completions ++ [.err .connectionError] })) ∧
    (s.session = some ⟨.receive, k⟩ →
      step s = .next { s with
        agenda := rest, phase := .rxWait, rxbuf := [], session := some ⟨.waiting, k⟩ }) ∧
    (∀ response : List Byte, s.session = some ⟨.validate response, k⟩ →
      step s = .next (
        if wellFormedFrame response = true then
          { s with agenda := rest, session := some ⟨.decode response, k⟩ }
        else
          { s with
            agenda := rest, session := none,
            completions := s.completions ++ [.err .decodeError] }))) ∧
  (∀ (s : State) (rest : List Event), s.framer = none → s.agenda = .host .proceed :: rest →
    s.phase = .rxWait ∨ s.session = none → step s = .next { s with agenda := rest })

/-- 45_session.md R175, R176, R178, R180, BINARY: four session operations begin with FRAME_BUILD of
their request, whose frame is ExchangeSteps' matter. set_parameter_value hands FRAME_BUILD any id; that
id 0 is handed over as it is, so that 30_encoding.md R54 leaves it out of msg_data although R175 writes
BE32(id) there, is the model's reading (log entry 20). Every session operation is Refused while a receive or an
exchange is in progress (70_reset_and_hazards.md R242; the model's reading, log entry 18). -/
def Obligations.SessionCallsBeginTheirExchange : Prop :=
  ∀ (s : State) (rest : List Event) (op : SessionOp),
    s.framer = none → s.agenda = .host (.call op) :: rest →
    (s.phase = .rxWait ∨ s.session ≠ none →
      step s = .next { s with agenda := rest, completions := s.completions ++ [.refused] }) ∧
    (∀ (command : Byte) (parameterId : Word) (payload : List Byte) (k : Await),
      s.phase = .idle → s.session = none → s.dialect = .binary →
      (∃ id value : Word, op = .setParameterValue id value ∧ k = .words ∧ command = 5 ∧
        parameterId = id ∧ payload = be32 value) ∨
      (op = .getLoggingConfiguration ∧ k = .logConfig ∧ command = 6 ∧ parameterId = 0 ∧
        payload = []) ∨
      (op = .getOperatingState ∧ k = .operatingState ∧ command = 4 ∧ parameterId = 0 ∧
        payload = [0, 0, 0x0F, 0xC3]) ∨
      (∃ target code, (target, code) ∈
          ([(.normal, 0), (.zeroCheck, 1), (.spanCheck, 2)] : List (TargetState × Byte)) ∧
        op = .setOperatingState target ∧ k = .setStateReply target ∧ command = 5 ∧
        parameterId = 4035 ∧ payload = [0, 0, 0, code]) →
      step s = .next { s with
        agenda := rest, session := some ⟨.build command parameterId payload, k⟩ })

/-- 45_session.md R172, R175 to R177, R181, R183. The response of a FRAME_RX that an exchange issued is
the exchange's: FRAME_VALIDATE is next in BINARY at the host's choice, else the decoder, or the host's
reading of the legacy line without its trailing white space. The last step of an exchange hands over
what its decoder makes of the response: RESP_DECODE's integers or LOG_DECODE's records, the logged parameter
ids, or the legacy line as it is. A response RESP_DECODE fails on ends every other session operation
with the same error (60_exceptions.md R212). That the host is handed the decoder's result alone, and
not each completion of the exchange's operations, is the model's reading (log entry 9). -/
def Obligations.ResponseIsDecoded : Prop :=
  (∀ (s : State) (size : Nat) (rest : List Event) (k : Await) (response blanks : List Byte),
    s.framer = none → s.agenda = .transport (.chunk size) :: rest → s.phase = .rxWait →
    s.session = some ⟨.waiting, k⟩ → s.residue.take size ≠ [] →
    s.rxbuf.length + (s.residue.take size).length ≤ Config.hw.rxbufMax →
    s.rxbuf ++ s.residue.take size = response ++ blanks →
    (s.dialect = .binary → blanks = [] → response.getLast? = some 0x04 →
      step s = .next { s with
        agenda := rest, residue := s.residue.drop size, phase := .idle, rxbuf := [],
        session := some
          ⟨if s.validates = true then .validate response else .decode response, k⟩ }) ∧
    (s.dialect = .legacy →
      [0x0D, 0x0A] <:+ response ++ blanks ∨ [0x0D, 0x0A, 0x0A] <:+ response ++ blanks →
      (∀ b ∈ blanks, b ∈ ([0x09, 0x0A, 0x0B, 0x0C, 0x0D, 0x20] : List Byte)) →
      (∀ b, response.getLast? = some b →
        b ∉ ([0x09, 0x0A, 0x0B, 0x0C, 0x0D, 0x20] : List Byte)) →
      step s = .next { s with
        agenda := rest, residue := s.residue.drop size, phase := .idle, rxbuf := [],
        session := some ⟨.decode response, k⟩ })) ∧
  ∀ (s : State) (rest : List Event) (k : Await) (response : List Byte) (c : Completion),
    HostIsNext s rest → s.session = some ⟨.decode response, k⟩ →
    (k = .words ∧ c = .ofResult .ints (respDecode Config.hw response)) ∨
    (k = .records ∧ c = .ofResult .records (logDecode Config.hw response)) ∨
    (k = .logConfig ∧ c = .ofResult (fun ints => .paramIds (ints.map (BitVec.ofInt 32)))
      (respDecode Config.hw response)) ∨
    (k = .text ∧ c = .ok (.text response)) ∨
    ((k matches .identifyFirst | .identifySecond _ | .values _ | .operatingState
        | .setStateReply _ | .setStatePoll _ _) ∧
      ∃ e, respDecode Config.hw response = .error e ∧ c = .err e) →
    step s = .next { s with
      agenda := rest, session := none, completions := s.completions ++ [c] }

/-- 45_session.md R182: the four operations the LEGACY dialect does not have end with
UnsupportedOperation; nothing is sent. -/
def Obligations.UnsupportedInLegacy : Prop :=
  ∀ (s : State) (op : SessionOp) (rest : List Event),
    s.framer = none → s.agenda = .host (.call op) :: rest → s.phase = .idle → s.session = none →
    s.dialect = .legacy →
    (op matches .setParameterValue _ _ | .getLoggingConfiguration | .getLoggedData _ _
      | .setOperatingState _) →
    step s = .next { s with
      agenda := rest, completions := s.completions ++ [.err .unsupportedOperation] }

/-- 45_session.md R172: in BINARY identify begins with FRAME_BUILD of the empty request of command 1,
begins the same again after the first response, and pairs the integers of both responses with the six
names; in LEGACY it sends the ID line. -/
def Obligations.IdentifySendsTwice : Prop :=
  (∀ (s : State) (rest : List Event), s.framer = none → s.phase = .idle → s.session = none →
    s.agenda = .host (.call .identify) :: rest →
    (s.dialect = .binary →
      step s = .next { s with agenda := rest, session := some ⟨.build 1 0 [], .identifyFirst⟩ }) ∧
    (s.dialect = .legacy →
      step s = .next { s with
        agenda := rest
        session := some
          ⟨.send ([0x49, 0x44] ++ Config.stationIdText s.stationId ++ [0x0D]), .text⟩ })) ∧
  (∀ (s : State) (rest : List Event) (response : List Byte) (ints : List Int), HostIsNext s rest →
    respDecode Config.hw response = .ok ints →
    (s.session = some ⟨.decode response, .identifyFirst⟩ →
      step s = .next { s with
        agenda := rest, session := some ⟨.build 1 0 [], .identifySecond ints⟩ }) ∧
    (∀ first, s.session = some ⟨.decode response, .identifySecond first⟩ →
      step s = .next { s with
        agenda := rest, session := none,
        completions := s.completions ++ [.ok (.identity
          (([.model, .variant, .subType, .range, .build, .branch] : List IdentityField).zip
            (first ++ ints)))] }))

/-- 45_session.md R173, BINARY: get_parameter_values begins with FRAME_BUILD of one request for all its
ids and pairs them with the response's integers by position. -/
def Obligations.GetValuesBatchesIds : Prop :=
  (∀ (s : State) (rest : List Event) (ids : List Word), s.framer = none → s.dialect = .binary →
    s.agenda = .host (.call (.getParameterValues ids)) :: rest → s.phase = .idle →
    s.session = none →
    step s = .next { s with
      agenda := rest, session := some ⟨.build 4 0 (ids.flatMap be32), .values ids⟩ }) ∧
  (∀ (s : State) (rest : List Event) (ids : List Word) (response : List Byte) (ints : List Int),
    HostIsNext s rest → s.session = some ⟨.decode response, .values ids⟩ →
    respDecode Config.hw response = .ok ints →
    step s = .next { s with
      agenda := rest, session := none,
      completions := s.completions ++ [.ok (.values (ids.zip ints))] })

/-- 45_session.md R174, LEGACY: ids of 100 and more give the empty string and no command; at the first
id below 100 one VI command is next and the rest waits. The line of a response is the value of its id;
after it the ids left go on in the same way, and with none below 100 left all are delivered. -/
def Obligations.LegacyValuesSkipLargeIds : Prop :=
  ∀ (s : State) (rest : List Event) (large : List Word), (∀ id ∈ large, 100 ≤ id.toNat) →
    (s.framer = none → s.phase = .idle → s.session = none → s.dialect = .legacy →
      (s.agenda = .host (.call (.getParameterValues large)) :: rest →
        step s = .next { s with
          agenda := rest,
          completions := s.completions ++ [.ok (.texts (large.map fun id => (id, [])))] }) ∧
      (∀ (id : Word) (ids : List Word), id.toNat < 100 →
        s.agenda = .host (.call (.getParameterValues (large ++ id :: ids))) :: rest →
        step s = .next { s with
          agenda := rest
          session := some ⟨.send ([0x56, 0x49] ++ Config.stationIdText s.stationId ++
              [BitVec.ofNat 8 (0x30 + id.toNat / 10), BitVec.ofNat 8 (0x30 + id.toNat % 10), 0x0D]),
            .valuesText id ids (large.map fun id => (id, []))⟩ })) ∧
    (∀ (asked : Word) (line : List Byte) (got : List (Word × List Byte)), HostIsNext s rest →
      (s.session = some ⟨.decode line, .valuesText asked large got⟩ →
        step s = .next { s with
          agenda := rest, session := none,
          completions := s.completions ++
            [.ok (.texts (got ++ [(asked, line)] ++ large.map fun id => (id, [])))] }) ∧
      (∀ (id : Word) (ids : List Word), id.toNat < 100 →
        s.session = some ⟨.decode line, .valuesText asked (large ++ id :: ids) got⟩ →
        step s = .next { s with
          agenda := rest
          session := some ⟨.send ([0x56, 0x49] ++ Config.stationIdText s.stationId ++
              [BitVec.ofNat 8 (0x30 + id.toNat / 10), BitVec.ofNat 8 (0x30 + id.toNat % 10), 0x0D]),
            .valuesText id ids
              (got ++ [(asked, line)] ++ large.map fun id => (id, []))⟩ }))

/-- 45_session.md R177: get_logged_data with start or end absent is InvalidArgument, also when the other
could not be encoded (that the arguments are looked at before TS_ENCODE is the model's reading, log entry
18). Else TS_ENCODE of start, then of end, each a step whose error ends it before anything is sent, then
FRAME_BUILD of command 7 with their bytes. -/
def Obligations.GetLoggedDataRequest : Prop :=
  (∀ (s : State) (rest : List Event) (start stop : Option DateTime),
    s.framer = none → s.agenda = .host (.call (.getLoggedData start stop)) :: rest →
    s.phase = .idle → s.session = none → s.dialect = .binary →
    (start = none ∨ stop = none →
      step s = .next { s with
        agenda := rest, completions := s.completions ++ [.err .invalidArgument] }) ∧
    (∀ a b, start = some a → stop = some b →
      step s = .next { s with agenda := rest, session := some ⟨.encodeStart a b, .records⟩ })) ∧
  (∀ (s : State) (rest : List Event) (a b : DateTime) (first : List Byte), HostIsNext s rest →
    (s.session = some ⟨.encodeStart a b, .records⟩ →
      (∀ e, Machine.tsEncode a = .error e →
        step s = .next { s with
          agenda := rest, session := none, completions := s.completions ++ [.err e] }) ∧
      (Machine.tsEncode a = .ok first →
        step s = .next { s with
          agenda := rest, session := some ⟨.encodeStop first b, .records⟩ })) ∧
    (s.session = some ⟨.encodeStop first b, .records⟩ →
      (∀ e, Machine.tsEncode b = .error e →
        step s = .next { s with
          agenda := rest, session := none, completions := s.completions ++ [.err e] }) ∧
      (∀ last, Machine.tsEncode b = .ok last →
        step s = .next { s with
          agenda := rest, session := some ⟨.build 7 0 (first ++ last), .records⟩ })))

/-- 45_session.md R178, BINARY: the first integer of the response of get_operating_state is mapped 0,
1, 2, anything else and nothing to the value Error. -/
def Obligations.BinaryOperatingState : Prop :=
  ∀ (s : State) (rest : List Event) (ints : List Int) (response : List Byte)
      (st : OperatingState),
    HostIsNext s rest → s.session = some ⟨.decode response, .operatingState⟩ →
    respDecode Config.hw response = .ok ints →
    (ints.head? = some 0 → st = .normal) → (ints.head? = some 1 → st = .zeroCheck) →
    (ints.head? = some 2 → st = .spanCheck) →
    (ints.head? ∉ [some 0, some 1, some 2] → st = .error) →
    step s = .next { s with
      agenda := rest, session := none,
      completions := s.completions ++ [.ok (.operatingState st)] }

/-- 45_session.md R179, LEGACY: get_operating_state sends one VI command of the query's number, which is
a free value (log entry 13); of the lines it receives "000", "032" and "016" are Normal, ZeroCheck and
SpanCheck; any other line is UnrecognizedState, never a default. -/
def Obligations.LegacyOperatingState : Prop :=
  (∀ (s : State) (rest : List Event) (param : Nat),
    s.framer = none → s.agenda = .host (.call .getOperatingState) :: rest → s.phase = .idle →
    s.session = none → s.dialect = .legacy → param = Config.voltageInputParam.val →
    step s = .next { s with
      agenda := rest
      session := some ⟨.send ([0x56, 0x49] ++ Config.stationIdText s.stationId ++
        [BitVec.ofNat 8 (0x30 + param / 10), BitVec.ofNat 8 (0x30 + param % 10), 0x0D]),
        .operatingStateText⟩ }) ∧
  (∀ (s : State) (rest : List Event) (line : List Byte),
    HostIsNext s rest → s.session = some ⟨.decode line, .operatingStateText⟩ →
    step s = .next { s with
      agenda := rest, session := none,
      completions := s.completions ++ [
        if line = [0x30, 0x30, 0x30] then .ok (.operatingState .normal)
        else if line = [0x30, 0x33, 0x32] then .ok (.operatingState .zeroCheck)
        else if line = [0x30, 0x31, 0x36] then .ok (.operatingState .spanCheck)
        else .err .unrecognizedState] })

/-- 45_session.md R180: the reply to the command of set_operating_state starts CONVERGENCE_BOUND polls,
each a request for parameter 4035; after a poll the operation is done when the first integer is 0 for
Normal, 1 for ZeroCheck, 2 for SpanCheck, fails with ConvergenceTimeout when the polls are used up, and
otherwise polls again with one fewer left. That the bound counts polls is the model's choice (log entry
5). -/
def Obligations.PollConvergesOrTimesOut : Prop :=
  ∀ (s : State) (left : Nat) (rest : List Event) (target : TargetState) (code : Int)
      (ints : List Int) (response : List Byte),
    HostIsNext s rest → respDecode Config.hw response = .ok ints →
    (target, code) ∈
      ([(.normal, 0), (.zeroCheck, 1), (.spanCheck, 2)] : List (TargetState × Int)) →
    (s.session = some ⟨.decode response, .setStateReply target⟩ →
      step s = .next { s with
        agenda := rest
        session := some ⟨.build 4 0 [0, 0, 0x0F, 0xC3],
          .setStatePoll target Config.hw.convergenceBound⟩ }) ∧
    (s.session = some ⟨.decode response, .setStatePoll target left⟩ →
      step s = .next (
        if ints.head? = some code then
          { s with
            agenda := rest, session := none,
            completions := s.completions ++ [.ok .stateReached] }
        else if left ≤ 1 then
          { s with
            agenda := rest, session := none,
            completions := s.completions ++ [.err .convergenceTimeout] }
        else
          { s with
            agenda := rest
            session := some ⟨.build 4 0 [0, 0, 0x0F, 0xC3],
              .setStatePoll target (left - 1)⟩ }))

/-- 45_session.md R180: in every state a step leads to from one where it holds, a poll in progress has
between 1 and CONVERGENCE_BOUND polls left, itself among them, whatever the bound. That the bound counts
polls, and not time, is the model's choice (log entry 5). -/
def Obligations.PollsAreBounded : Prop :=
  ∀ s t : State, step s = .next t →
    (∀ stage target left, s.session = some ⟨stage, .setStatePoll target left⟩ →
      1 ≤ left ∧ left ≤ Config.hw.convergenceBound) →
    (∀ stage target left, t.session = some ⟨stage, .setStatePoll target left⟩ →
      1 ≤ left ∧ left ≤ Config.hw.convergenceBound)

/-! ### Whole-machine rules -/

/-- The invariant holds after reset, for every value of the straps. -/
def Obligations.InvariantAtReset : Prop :=
  ∀ (station : Byte) (dialect : Dialect), MachineInv (State.resetWith station dialect)

/-- 10_state.md R15, R16, 42_frame.md R105, R106, R109, 45_session.md R181: every step keeps the
invariant. -/
def Obligations.StepKeepsInvariant : Prop :=
  ∀ s t : State, MachineInv s → step s = .next t → MachineInv t

/-- 00_scope.md R8, R9: a step makes at most one operation, and hands the host at most one outcome; none
it has handed over changes. That the completions of an exchange's operations go to the exchange and not
to this list is the model's reading (log entry 9). -/
def Obligations.AtMostOneCompletionPerStep : Prop :=
  ∀ s t : State, step s = .next t →
    t.completions = s.completions ∨ ∃ c, t.completions = s.completions ++ [c]
end

