-- ==== Sys2Proof/Laws/Codec.lean ====
section
/-! SUPPORT. Small lemmas of the byte-level functions: lengths, byte order, reads, the exclusive or,
the frame. -/

namespace Sys2Proof.Machine

/-! ### Byte order and lengths -/

@[simp] theorem be16_length (n : Nat) : (be16 n).length = 2 := rfl

@[simp] theorem be32_length (w : Word) : (be32 w).length = 4 := rfl

@[simp] theorem be32s_nil : be32s [] = [] := rfl

@[simp] theorem be32s_cons (w : Word) (ws : List Word) : be32s (w :: ws) = be32 w ++ be32s ws := rfl

@[simp] theorem be32s_length (ws : List Word) : (be32s ws).length = 4 * ws.length := by
  induction ws with
  | nil => rfl
  | cons w ws ih => simp [ih]; omega

theorem beNat_pair (a b : Byte) : beNat [a, b] = a.toNat * 256 + b.toNat := by
  simp [beNat]

theorem beNat_quad (a b c d : Byte) :
    beNat [a, b, c, d] = ((a.toNat * 256 + b.toNat) * 256 + c.toNat) * 256 + d.toNat := by
  simp [beNat]

theorem beNat_be16 {n : Nat} (h : n < 65536) : beNat (be16 n) = n := by
  simp only [be16, beNat_pair, BitVec.toNat_ofNat]
  omega

theorem beNat_be32 (w : Word) : beNat (be32 w) = w.toNat := by
  simp only [be32, beNat_quad, BitVec.extractLsb'_toNat, Nat.shiftRight_eq_div_pow]
  have := w.isLt
  omega

/-! ### Delimiting and reading -/

@[simp] theorem slice_length (buf : List Byte) (a b : Nat) :
    (slice buf a b).length = min b buf.length - a := by
  simp [slice]

@[simp] theorem memRead_hw (buf : List Byte) (off n : Nat) :
    memRead Config.hw buf off n = memReadFull buf off n := rfl

theorem memReadFull_ok {buf : List Byte} {off n : Nat} (h : off + n ≤ buf.length) :
    memReadFull buf off n = .ok (beNat (slice buf off (off + n))) := by
  simp [memReadFull, h]

theorem memReadFull_short {buf : List Byte} {off n : Nat} (h : buf.length < off + n) :
    memReadFull buf off n = .error .decodeError := by
  simp [memReadFull, Nat.not_le.mpr h]

/-- The bytes between two parts of a buffer. -/
theorem slice_middle (before middle after : List Byte) {a b : Nat} (ha : a = before.length)
    (hb : b = before.length + middle.length) :
    slice (before ++ middle ++ after) a b = middle := by
  subst ha hb
  simp [slice, List.take_append]

/-- A field read from where it was written. -/
theorem memReadFull_field (before after : List Byte) (w : Word) {off : Nat}
    (h : off = before.length) :
    memReadFull (before ++ be32 w ++ after) off 4 = .ok w.toNat := by
  rw [memReadFull_ok (by simp [h]), slice_middle before (be32 w) after h (by simp [h]), beNat_be32]

/-! ### The exclusive or -/

@[simp] theorem xorAll_nil : xorAll [] = 0 := rfl

theorem foldl_xor (acc : Byte) (bytes : List Byte) :
    bytes.foldl (fun acc b => acc ^^^ b) acc = acc ^^^ xorAll bytes := by
  induction bytes generalizing acc with
  | nil => simp
  | cons b bs ih => simp [xorAll, ih (acc ^^^ b), ih b, BitVec.xor_assoc]

/-! ### The frame -/

@[simp] theorem frameHead_length (station command : Byte) (msgData : List Byte) :
    (frameHead station command msgData).length = msgData.length + 6 := by
  simp [frameHead, be16]

@[simp] theorem frameBytes_length (station command : Byte) (msgData : List Byte) :
    (frameBytes station command msgData).length = msgData.length + 8 := by
  simp [frameBytes]

/-- FRAME_BUILD, in the two cases it has. -/
theorem frameBuild_eq (station command : Byte) (parameterId : Word) (payload : List Byte) :
    (Config.lenMax < (requestData parameterId payload).length ∧
      frameBuild station command parameterId payload = .error .rangeError) ∨
    ((requestData parameterId payload).length ≤ Config.lenMax ∧
      frameBuild station command parameterId payload =
        .ok (frameBytes station command (requestData parameterId payload))) := by
  unfold frameBuild
  split
  · exact .inl ⟨‹_›, rfl⟩
  · exact .inr ⟨by omega, rfl⟩

@[simp] theorem requestData_zero (payload : List Byte) : requestData 0 payload = payload := rfl

/-! ### The packed timestamp -/

theorem encodableYear_eq (year : Nat) :
    encodableYear year = decide (2000 ≤ year ∧ year < 2064) := rfl

theorem daysInMonth_le (year month : Nat) : daysInMonth year month ≤ 31 := by
  unfold daysInMonth
  split <;> split <;> omega

/-- Every field of a valid date and time fits its width. -/
theorem validDateTime_bounds {t : DateTime} (h : validDateTime t = true) :
    t.month < 16 ∧ t.day < 32 ∧ t.hour < 32 ∧ t.minute < 64 ∧ t.second < 64 := by
  simp only [validDateTime, decide_eq_true_eq] at h
  have := daysInMonth_le t.year t.month
  omega

/-- Appending a field below a value: the low bits are free, so or is plus. -/
theorem shift_or_field (a b i w : Nat) (h : b < 2 ^ w) :
    a <<< (w + i) ||| b <<< i = (a * 2 ^ w + b) <<< i := by
  rw [Nat.shiftLeft_add, ← Nat.shiftLeft_or_distrib, ← Nat.shiftLeft_add_eq_or_of_lt h,
    Nat.shiftLeft_eq a w]

/-- No field of a valid date and time spills into its neighbour. -/
theorem packTimestamp_eq_add {t : DateTime} (h : validDateTime t = true) :
    packTimestamp t = (t.year - 2000) * 2 ^ 26 + t.month * 2 ^ 22 + t.day * 2 ^ 17 +
      t.hour * 2 ^ 12 + t.minute * 2 ^ 6 + t.second := by
  obtain ⟨hmo, hd, hh, hmi, hs⟩ := validDateTime_bounds h
  have e1 := shift_or_field (t.year - 2000) t.month 22 4 hmo
  have e2 := shift_or_field ((t.year - 2000) * 2 ^ 4 + t.month) t.day 17 5 hd
  have e3 := shift_or_field (((t.year - 2000) * 2 ^ 4 + t.month) * 2 ^ 5 + t.day) t.hour 12 5 hh
  have e4 := shift_or_field ((((t.year - 2000) * 2 ^ 4 + t.month) * 2 ^ 5 + t.day) * 2 ^ 5 + t.hour)
    t.minute 6 6 hmi
  simp only [Nat.reduceAdd] at e1 e2 e3 e4
  unfold packTimestamp
  rw [show Config.yearBase = 2000 from rfl, e1, e2, e3, e4, ← Nat.shiftLeft_add_eq_or_of_lt hs,
    Nat.shiftLeft_eq]
  ring

/-- The fields of a packed timestamp as quotients and remainders. -/
theorem unpackTimestamp_eq (raw : Word) :
    unpackTimestamp raw =
      ⟨raw.toNat / 2 ^ 26 + 2000, raw.toNat / 2 ^ 22 % 2 ^ 4, raw.toNat / 2 ^ 17 % 2 ^ 5,
        raw.toNat / 2 ^ 12 % 2 ^ 5, raw.toNat / 2 ^ 6 % 2 ^ 6, raw.toNat % 2 ^ 6⟩ := by
  have hlt : raw.toNat / 2 ^ 26 < 2 ^ 6 := by
    have := raw.isLt
    omega
  simp only [unpackTimestamp, BitVec.extractLsb'_toNat, Nat.shiftRight_eq_div_pow]
  rw [Nat.mod_eq_of_lt hlt]
  simp [Config.yearBase]

theorem tsDecode_ok_iff {raw : Word} {t : DateTime} :
    tsDecode raw = .ok t ↔ validDateTime t = true ∧ unpackTimestamp raw = t := by
  unfold tsDecode
  split
  · constructor
    · rintro ⟨⟩
      exact ⟨‹_›, rfl⟩
    · rintro ⟨-, rfl⟩
      rfl
  · constructor
    · rintro ⟨⟩
    · rintro ⟨h, rfl⟩
      contradiction

/-! ### Decoders -/

theorem readWords_cons (cfg : Config) (buf : List Byte) (n off : Nat) :
    readWords cfg buf (n + 1) off =
      (memRead cfg buf off 4).bind fun w =>
        (readWords cfg buf n (off + 4)).bind fun ws => .ok (w :: ws) := rfl

/-- RESP_DECODE's words are all there, or the read fails. -/
theorem readWords_hw (buf : List Byte) (n off : Nat) :
    (off + 4 * n ≤ buf.length ∨ n = 0) ∧
      (∃ ws, readWords Config.hw buf n off = .ok ws ∧ ws.length = n ∧
        ∀ k < n, ws[k]? = some (beNat (slice buf (off + 4 * k) (off + 4 * k + 4)))) ∨
    (buf.length < off + 4 * n ∧ 0 < n ∧ readWords Config.hw buf n off = .error .decodeError) := by
  induction n generalizing off with
  | zero => exact .inl ⟨.inr rfl, [], rfl, rfl, by simp⟩
  | succ n ih =>
    rw [readWords_cons, memRead_hw]
    by_cases h : off + 4 ≤ buf.length
    · rw [memReadFull_ok h]
      rcases ih (off + 4) with ⟨hle, ws, hws, hlen, hk⟩ | ⟨hlt, hn, herr⟩
      · refine .inl ⟨.inl (by omega), _, by rw [hws]; rfl, by simp [hlen], ?_⟩
        intro k hlt
        cases k with
        | zero => simp
        | succ k =>
          rw [List.getElem?_cons_succ, hk k (by omega)]
          congr 3 <;> omega
      · exact .inr ⟨by omega, by omega, by rw [herr]; rfl⟩
    · rw [memReadFull_short (by omega)]
      exact .inr ⟨by omega, by omega, rfl⟩

theorem readIds_cons_hw (window : List Byte) (n off : Nat) :
    readIds Config.hw window (n + 1) off =
      (memReadFull window off 4).bind fun w =>
        (readIds Config.hw window n (off + 4)).bind fun ws => .ok (BitVec.ofNat 32 w :: ws) := by
  simp [readIds, Config.hw]; rfl

theorem readPairs_cons (window : List Byte) (key : Word) (keys : List Word) (off : Nat) :
    readPairs window (key :: keys) off =
      (fieldValue window key off).bind fun v =>
        (readPairs window keys (off + 4)).bind fun ps => .ok ((key, v) :: ps) := rfl

theorem fieldValue_empty (window : List Byte) {key : Word} (off : Nat)
    (h : key.toNat ≤ Config.floatKeyThreshold) : fieldValue window key off = .ok .empty := by
  simp [fieldValue, Nat.not_lt.mpr h]

theorem fieldValue_float (window : List Byte) {key : Word} (off : Nat)
    (h : Config.floatKeyThreshold < key.toNat) :
    fieldValue window key off =
      (memReadFull window off 4).bind fun w => .ok (.float (BitVec.ofNat 32 w)) := by
  simp [fieldValue, h]; rfl

end Sys2Proof.Machine
end

