-- ==== Sys2Proof/Laws/State.lean ====
section
/-! SUPPORT. One lemma per field for each named update of State. -/

namespace Sys2Proof.Machine

variable (s : State) (c : Completion) (rest : List Event) (stage : Stage) (k : Await)

/-! ### A completion -/

@[simp] theorem complete_stationId : (complete c s).stationId = s.stationId := rfl
@[simp] theorem complete_dialect : (complete c s).dialect = s.dialect := rfl
@[simp] theorem complete_phase : (complete c s).phase = s.phase := rfl
@[simp] theorem complete_rxbuf : (complete c s).rxbuf = s.rxbuf := rfl
@[simp] theorem complete_framer : (complete c s).framer = s.framer := rfl
@[simp] theorem complete_link : (complete c s).link = s.link := rfl
@[simp] theorem complete_reachable : (complete c s).reachable = s.reachable := rfl
@[simp] theorem complete_residue : (complete c s).residue = s.residue := rfl
@[simp] theorem complete_sent : (complete c s).sent = s.sent := rfl
@[simp] theorem complete_session : (complete c s).session = s.session := rfl
@[simp] theorem complete_validates : (complete c s).validates = s.validates := rfl
@[simp] theorem complete_completions : (complete c s).completions = s.completions ++ [c] := rfl
@[simp] theorem complete_agenda : (complete c s).agenda = s.agenda := rfl

/-! ### The start of a receive -/

@[simp] theorem beginReceive_stationId : (beginReceive s).stationId = s.stationId := rfl
@[simp] theorem beginReceive_dialect : (beginReceive s).dialect = s.dialect := rfl
@[simp] theorem beginReceive_phase : (beginReceive s).phase = .rxWait := rfl
@[simp] theorem beginReceive_rxbuf : (beginReceive s).rxbuf = [] := rfl
@[simp] theorem beginReceive_framer : (beginReceive s).framer = s.framer := rfl
@[simp] theorem beginReceive_link : (beginReceive s).link = s.link := rfl
@[simp] theorem beginReceive_reachable : (beginReceive s).reachable = s.reachable := rfl
@[simp] theorem beginReceive_residue : (beginReceive s).residue = s.residue := rfl
@[simp] theorem beginReceive_sent : (beginReceive s).sent = s.sent := rfl
@[simp] theorem beginReceive_session : (beginReceive s).session = s.session := rfl
@[simp] theorem beginReceive_validates : (beginReceive s).validates = s.validates := rfl
@[simp] theorem beginReceive_completions : (beginReceive s).completions = s.completions := rfl
@[simp] theorem beginReceive_agenda : (beginReceive s).agenda = s.agenda := rfl

/-! ### The end of a receive -/

@[simp] theorem endReceive_stationId : (endReceive s).stationId = s.stationId := rfl
@[simp] theorem endReceive_dialect : (endReceive s).dialect = s.dialect := rfl
@[simp] theorem endReceive_phase : (endReceive s).phase = .idle := rfl
@[simp] theorem endReceive_rxbuf : (endReceive s).rxbuf = [] := rfl
@[simp] theorem endReceive_framer : (endReceive s).framer = s.framer := rfl
@[simp] theorem endReceive_link : (endReceive s).link = s.link := rfl
@[simp] theorem endReceive_reachable : (endReceive s).reachable = s.reachable := rfl
@[simp] theorem endReceive_residue : (endReceive s).residue = s.residue := rfl
@[simp] theorem endReceive_sent : (endReceive s).sent = s.sent := rfl
@[simp] theorem endReceive_session : (endReceive s).session = s.session := rfl
@[simp] theorem endReceive_validates : (endReceive s).validates = s.validates := rfl
@[simp] theorem endReceive_completions : (endReceive s).completions = s.completions := rfl
@[simp] theorem endReceive_agenda : (endReceive s).agenda = s.agenda := rfl

/-! ### The next event taken -/

@[simp] theorem withAgenda_stationId : (withAgenda s rest).stationId = s.stationId := rfl
@[simp] theorem withAgenda_dialect : (withAgenda s rest).dialect = s.dialect := rfl
@[simp] theorem withAgenda_phase : (withAgenda s rest).phase = s.phase := rfl
@[simp] theorem withAgenda_rxbuf : (withAgenda s rest).rxbuf = s.rxbuf := rfl
@[simp] theorem withAgenda_framer : (withAgenda s rest).framer = s.framer := rfl
@[simp] theorem withAgenda_link : (withAgenda s rest).link = s.link := rfl
@[simp] theorem withAgenda_reachable : (withAgenda s rest).reachable = s.reachable := rfl
@[simp] theorem withAgenda_residue : (withAgenda s rest).residue = s.residue := rfl
@[simp] theorem withAgenda_sent : (withAgenda s rest).sent = s.sent := rfl
@[simp] theorem withAgenda_session : (withAgenda s rest).session = s.session := rfl
@[simp] theorem withAgenda_validates : (withAgenda s rest).validates = s.validates := rfl
@[simp] theorem withAgenda_completions : (withAgenda s rest).completions = s.completions := rfl
@[simp] theorem withAgenda_agenda : (withAgenda s rest).agenda = rest := rfl

/-! ### The exchange in progress -/

@[simp] theorem engage_stationId : (engage stage k s).stationId = s.stationId := rfl
@[simp] theorem engage_dialect : (engage stage k s).dialect = s.dialect := rfl
@[simp] theorem engage_phase : (engage stage k s).phase = s.phase := rfl
@[simp] theorem engage_rxbuf : (engage stage k s).rxbuf = s.rxbuf := rfl
@[simp] theorem engage_framer : (engage stage k s).framer = s.framer := rfl
@[simp] theorem engage_link : (engage stage k s).link = s.link := rfl
@[simp] theorem engage_reachable : (engage stage k s).reachable = s.reachable := rfl
@[simp] theorem engage_residue : (engage stage k s).residue = s.residue := rfl
@[simp] theorem engage_sent : (engage stage k s).sent = s.sent := rfl
@[simp] theorem engage_session : (engage stage k s).session = some ⟨stage, k⟩ := rfl
@[simp] theorem engage_validates : (engage stage k s).validates = s.validates := rfl
@[simp] theorem engage_completions : (engage stage k s).completions = s.completions := rfl
@[simp] theorem engage_agenda : (engage stage k s).agenda = s.agenda := rfl

@[simp] theorem disengage_stationId : (disengage s).stationId = s.stationId := rfl
@[simp] theorem disengage_dialect : (disengage s).dialect = s.dialect := rfl
@[simp] theorem disengage_phase : (disengage s).phase = s.phase := rfl
@[simp] theorem disengage_rxbuf : (disengage s).rxbuf = s.rxbuf := rfl
@[simp] theorem disengage_framer : (disengage s).framer = s.framer := rfl
@[simp] theorem disengage_link : (disengage s).link = s.link := rfl
@[simp] theorem disengage_reachable : (disengage s).reachable = s.reachable := rfl
@[simp] theorem disengage_residue : (disengage s).residue = s.residue := rfl
@[simp] theorem disengage_sent : (disengage s).sent = s.sent := rfl
@[simp] theorem disengage_session : (disengage s).session = none := rfl
@[simp] theorem disengage_validates : (disengage s).validates = s.validates := rfl
@[simp] theorem disengage_completions : (disengage s).completions = s.completions := rfl
@[simp] theorem disengage_agenda : (disengage s).agenda = s.agenda := rfl

end Sys2Proof.Machine
end

