-- ==== Sys2Proof/Laws/Ops.lean ====
section
/-! SUPPORT. For each shared operation, once, everything it can do. -/

namespace Sys2Proof.Machine

variable {s t : State}

theorem Phase.ne_idle_iff {p : Phase} : p ≠ .idle ↔ p = .rxWait := by cases p <;> simp

theorem Phase.ne_rxWait_iff {p : Phase} : p ≠ .rxWait ↔ p = .idle := by cases p <;> simp

/-! ### Issues -/

theorem acceptIdle_idle (next : State) (h : s.phase = .idle) : acceptIdle s next = .next next := by
  simp [acceptIdle, h]

theorem acceptIdle_rxWait (next : State) (h : s.phase = .rxWait) :
    acceptIdle s next = .next (complete .refused s) := by
  simp [acceptIdle, h]

/-- An Issue is refused in RX_WAIT or leads to the given state in IDLE. -/
theorem acceptIdle_cases (next : State) :
    (s.phase = .rxWait ∧ acceptIdle s next = .next (complete .refused s)) ∨
    (s.phase = .idle ∧ acceptIdle s next = .next next) := by
  cases h : s.phase
  · exact .inr ⟨rfl, acceptIdle_idle next h⟩
  · exact .inl ⟨rfl, acceptIdle_rxWait next h⟩

theorem pureOp_idle (c : Completion) (h : s.phase = .idle) : pureOp c s = .next (complete c s) :=
  acceptIdle_idle _ h

theorem pureOp_rxWait (c : Completion) (h : s.phase = .rxWait) :
    pureOp c s = .next (complete .refused s) :=
  acceptIdle_rxWait _ h

/-! ### The connection -/

/-- A request can go out: a connection stands, or none stands and one can be opened. -/
abbrev CanSend (s : State) : Prop := s.link = .opened ∨ (s.link = .closed ∧ s.reachable = true)

/-- The state in which a request has been sent, over a connection that stood or was opened for it. -/
def sentOver (bytes : List Byte) (s : State) : State :=
  { s with
    link := .opened
    residue := if s.link = .opened then s.residue else []
    sent := s.sent ++ bytes }

theorem sendRequest_sends (bytes : List Byte) (h : CanSend s) :
    sendRequest bytes s = some (sentOver bytes s) := by
  rcases h with h | ⟨h, hr⟩
  · simp [sendRequest, connect, transmit, sentOver, h]
  · simp [sendRequest, connect, transmit, sentOver, h, hr]

theorem sendRequest_fails (bytes : List Byte) (h : ¬ CanSend s) : sendRequest bytes s = none := by
  unfold CanSend at h
  cases hl : s.link with
  | opened => simp [hl] at h
  | dropped => simp [sendRequest, connect, transmit, hl]
  | closed =>
    have hr : s.reachable = false := by simpa [hl] using h
    simp [sendRequest, connect, hl, hr]

/-! ### The exchange in progress -/

/-- A send goes out and FRAME_RX is issued next, or it ends the exchange with ConnectionError. -/
theorem exchangeSend_cases (bytes : List Byte) (k : Await) (s : State) :
    (CanSend s ∧ exchangeSend bytes k s = engage .receive k (sentOver bytes s)) ∨
    (¬ CanSend s ∧ exchangeSend bytes k s = linkFailure (disengage s)) := by
  by_cases h : CanSend s
  · exact .inl ⟨h, by simp [exchangeSend, sendRequest_sends bytes h]⟩
  · exact .inr ⟨h, by simp [exchangeSend, sendRequest_fails bytes h]⟩

theorem exchangeSend_sends (bytes : List Byte) (k : Await) (h : CanSend s) :
    exchangeSend bytes k s = engage .receive k (sentOver bytes s) := by
  simp [exchangeSend, sendRequest_sends bytes h]

theorem exchangeSend_fails (bytes : List Byte) (k : Await) (h : ¬ CanSend s) :
    exchangeSend bytes k s = linkFailure (disengage s) := by
  simp [exchangeSend, sendRequest_fails bytes h]

/-- The exchange goes on with a value, or ends with an error. -/
theorem afterOperation_cases {α : Type} (r : Result α) (next : α → Stage) (k : Await) (s : State) :
    (∃ v, r = .ok v ∧ afterOperation r next k s = engage (next v) k s) ∨
    (∃ e, r = .error e ∧ afterOperation r next k s = complete (.err e) (disengage s)) := by
  cases r with
  | ok v => exact .inl ⟨v, rfl, rfl⟩
  | error e => exact .inr ⟨e, rfl, rfl⟩

theorem hostTurn_none (h : s.session = none) : hostTurn s = s := by simp [hostTurn, h]

theorem hostTurn_rxWait (h : s.phase = .rxWait) : hostTurn s = s := by
  unfold hostTurn
  split <;> simp [h]

theorem hostTurn_idle {x : Exchange} (hx : s.session = some x) (h : s.phase = .idle) :
    hostTurn s = exchangeStep x s := by
  simp [hostTurn, hx, h]

/-! ### The end of a receive -/

/-- The completion of a FRAME_RX that no exchange waits for goes to the host. -/
theorem finishReceive_host (r : Result (List Byte)) (h : ∀ k, s.session ≠ some ⟨.waiting, k⟩) :
    finishReceive r s = complete (.ofResult .bytes r) (endReceive s) := by
  unfold finishReceive
  split
  · exact absurd ‹_› (h _)
  · rfl

theorem finishReceive_exchange {k : Await} (r : Result (List Byte))
    (h : s.session = some ⟨.waiting, k⟩) :
    finishReceive r s = afterOperation r (responseStage s) k (endReceive s) := by
  simp [finishReceive, h]

/-! ### Records -/

theorem decode_record_cases (bytes : List Byte) :
    (∃ rest, bytes = Config.recTypeHeader :: rest ∧ decode (.record bytes) = .ok (.recHeader rest)) ∨
    (∃ rest, bytes = Config.recTypeData :: rest ∧ decode (.record bytes) = .ok (.recData rest)) ∨
    decode (.record bytes) = .error .recordType := by
  cases bytes with
  | nil => exact .inr (.inr rfl)
  | cons b rest =>
    by_cases h1 : b = Config.recTypeHeader
    · exact .inl ⟨rest, by rw [h1], by simp [decode, decodeRecord, h1]⟩
    · by_cases h0 : b = Config.recTypeData
      · refine .inr (.inl ⟨rest, by rw [h0], ?_⟩)
        simp [decode, decodeRecord, h0, Config.recTypeData, Config.recTypeHeader]
      · exact .inr (.inr (by simp [decode, decodeRecord, h0, h1]))

/-- A record of a LOG_DECODE in progress: executed, or DecodeError for a slice of no record type. -/
theorem recordTurn_eq (f : Framer) (s : State) :
    recordTurn f s =
      match decode (fetchRecord f) with
      | .ok i => exec i s
      | .error _ => .next (endRecords (.error .decodeError) s) := by
  unfold recordTurn fetchRecord
  rcases decode_record_cases (f.currentSlice Config.hw) with ⟨rest, -, h⟩ | ⟨rest, -, h⟩ | h <;>
    simp [h, exec]

end Sys2Proof.Machine
end

