-- ==== Sys2Proof/Laws/PerInstr.lean ====
section
/-! SUPPORT. What holds of every instruction as syntax, one lemma per constructor: its encoding begins
with the bits its row of spec/opcode_table.json fixes. -/

namespace Sys2Proof.Laws.TableCode

/-- The fixed bits of a row of the opcode table, by its format. -/
inductive Code where
  /-- OP: OPSEL. -/
  | opsel (code : BitVec 4)
  /-- FRAME: STX, any station, the command, ETX. -/
  | frame (command : Byte)
  /-- RECORD: the type byte. -/
  | record (type : Byte)
  /-- LEGACY: two letters. -/
  | letters (first second : Byte)
  deriving DecidableEq, Repr

/-- The row of an instruction, as the table has it. -/
def code : Instr → Code
  | .checksum _ => .opsel 0b0000
  | .tsDecode _ => .opsel 0b0001
  | .tsEncode _ => .opsel 0b0010
  | .frameBuild _ _ _ => .opsel 0b0011
  | .frameRx => .opsel 0b0100
  | .frameValidate _ => .opsel 0b0101
  | .respDecode _ => .opsel 0b0110
  | .logDecode _ => .opsel 0b0111
  | .getId _ => .frame 0b00000001
  | .getValues _ _ => .frame 0b00000100
  | .setValue _ _ _ => .frame 0b00000101
  | .getLogConfig _ => .frame 0b00000110
  | .getLoggedData _ _ _ => .frame 0b00000111
  | .recHeader _ => .record 0b00000001
  | .recData _ => .record 0b00000000
  | .legacyId _ => .letters 0b01001001 0b01000100
  | .legacyVi _ _ => .letters 0b01010110 0b01001001

/-- What is presented begins with the bits of a row. -/
def Begins (p : Presented) : Code → Prop
  | .opsel c => ∃ operands, p = .op c operands
  | .frame c => ∃ station rest, p = .command (0b00000010 :: station :: c :: 0b00000011 :: rest)
  | .record t => ∃ rest, p = .record (t :: rest)
  | .letters a b => ∃ rest, p = .command (a :: b :: rest)

/-- The encoding of i begins as its row says. -/
def Statement (i : Instr) : Prop := Begins (encode i) (code i)

theorem checksum (bytes : List Byte) : Statement (.checksum bytes) := ⟨_, rfl⟩
theorem tsDecode (raw : Word) : Statement (.tsDecode raw) := ⟨_, rfl⟩
theorem tsEncode (dtm : DateTime) : Statement (.tsEncode dtm) := ⟨_, rfl⟩
theorem frameBuild (command : Byte) (parameterId : Word) (payload : List Byte) :
    Statement (.frameBuild command parameterId payload) := ⟨_, rfl⟩
theorem frameRx : Statement .frameRx := ⟨_, rfl⟩
theorem frameValidate (bytes : List Byte) : Statement (.frameValidate bytes) := ⟨_, rfl⟩
theorem respDecode (response : List Byte) : Statement (.respDecode response) := ⟨_, rfl⟩
theorem logDecode (response : List Byte) : Statement (.logDecode response) := ⟨_, rfl⟩
theorem getId (station : Byte) : Statement (.getId station) := ⟨_, _, rfl⟩
theorem getValues (station : Byte) (ids : List Word) : Statement (.getValues station ids) :=
  ⟨_, _, rfl⟩
theorem setValue (station : Byte) (id value : Word) : Statement (.setValue station id value) :=
  ⟨_, _, rfl⟩
theorem getLogConfig (station : Byte) : Statement (.getLogConfig station) := ⟨_, _, rfl⟩
theorem getLoggedData (station : Byte) (start stop : Word) :
    Statement (.getLoggedData station start stop) := ⟨_, _, rfl⟩
theorem recHeader (rest : List Byte) : Statement (.recHeader rest) := ⟨_, rfl⟩
theorem recData (rest : List Byte) : Statement (.recData rest) := ⟨_, rfl⟩
theorem legacyId (stationText : List Byte) : Statement (.legacyId stationText) := ⟨_, rfl⟩
theorem legacyVi (stationText : List Byte) (param : Nat) :
    Statement (.legacyVi stationText param) := ⟨_, rfl⟩

end Sys2Proof.Laws.TableCode
end

