-- ==== Sys2Proof/Laws/Step.lean ====
section
/-! SUPPORT. Once, everything a step can be: a record, an instruction, an event; and what a record and
LOG_DECODE can do. -/

namespace Sys2Proof.Machine

/-! ### Records -/

theorem framerTurn_eq (f : Framer) :
    framerTurn Config.hw f = (byteAt (f.currentSlice Config.hw) 0).bind fun t =>
      if t = Config.recTypeHeader then headerRecord Config.hw f (f.currentSlice Config.hw)
      else if t = Config.recTypeData then dataRecord Config.hw f (f.currentSlice Config.hw)
      else .error .decodeError := rfl

theorem headerRecord_eq (f : Framer) (window : List Byte) :
    headerRecord Config.hw f window = (memReadFull window 12 4).bind fun n =>
      (readIds Config.hw window n 16).bind fun ids =>
        .ok { f with keys := ids, index := f.index + 1 } := rfl

theorem dataRecord_eq (f : Framer) (window : List Byte) :
    dataRecord Config.hw f window = (memReadFull window 12 4).bind fun n =>
      (memReadFull window 4 4).bind fun raw => (tsDecode (BitVec.ofNat 32 raw)).bind fun ts =>
        (memReadFull window 8 4).bind fun iv =>
          (readPairs window (f.keys.take n) 16).bind fun pairs =>
            .ok { f with out := f.out ++ [⟨pairs, ts, BitVec.ofNat 32 iv⟩], index := f.index + 1 } :=
  rfl

/-- A record that decodes moves the index on by one and leaves the number of records. -/
theorem framerTurn_index {f f' : Framer} (h : framerTurn Config.hw f = .ok f') :
    f'.index = f.index + 1 ∧ f'.records = f.records := by
  rw [framerTurn_eq] at h
  simp only [headerRecord_eq, dataRecord_eq, Except.bind] at h
  split at h
  · cases h
  split at h
  · repeat' (split at h <;> try cases h)
    exact ⟨rfl, rfl⟩
  split at h
  · repeat' (split at h <;> try cases h)
    exact ⟨rfl, rfl⟩
  · cases h

/-- The record a LOG_DECODE in progress executes is the record its framer decodes. -/
theorem recordTurn_framer {f : Framer} {s : State} (hs : s.framer = some f) :
    recordTurn f s = .next (afterRecord (framerTurn Config.hw f) s) := by
  rw [recordTurn_eq, framerTurn_eq]
  cases hw : f.currentSlice Config.hw with
  | nil => simp [fetchRecord, hw, decode, decodeRecord, byteAt]; rfl
  | cons b rest =>
    rw [show byteAt (b :: rest) 0 = .ok b from rfl]
    show _ = Host.Outcome.next (afterRecord (if _ then _ else _) s)
    by_cases h1 : b = Config.recTypeHeader
    · simp [fetchRecord, hw, decode, decodeRecord, h1, exec, execRecHeader, runRecord, hs]
    · by_cases h2 : b = Config.recTypeData
      · subst h2
        simp only [fetchRecord, hw, decode, decodeRecord, h1, if_false, if_true, exec, execRecData,
          runRecord, hs]
      · simp [fetchRecord, hw, decode, decodeRecord, h1, h2]; rfl

/-- A record leaves the straps, the receive and the session, and hands over at most one outcome. -/
theorem afterRecord_frame (r : Result Framer) (s : State) :
    SameStraps s (afterRecord r s) ∧ (afterRecord r s).phase = s.phase ∧
      (afterRecord r s).rxbuf = s.rxbuf ∧ (afterRecord r s).session = s.session ∧
      ((afterRecord r s).completions = s.completions ∨
        ∃ c, (afterRecord r s).completions = s.completions ++ [c]) := by
  unfold afterRecord
  split
  · exact ⟨⟨rfl, rfl⟩, rfl, rfl, rfl, .inr ⟨_, rfl⟩⟩
  · split
    · exact ⟨⟨rfl, rfl⟩, rfl, rfl, rfl, .inl rfl⟩
    · exact ⟨⟨rfl, rfl⟩, rfl, rfl, rfl, .inr ⟨_, rfl⟩⟩

/-- A framer that starts is at record 0 with nothing put out. -/
theorem logStart_index {response : List Byte} {f : Framer}
    (h : logStart Config.hw response = .ok (some f)) : f.index = 0 ∧ f.out = [] := by
  unfold logStart at h
  split at h
  · change (messageLength _ _).bind (fun _ => (memReadFull _ 12 4).bind _) = _ at h
    cases h1 : messageLength Config.hw response with
    | error e => rw [h1] at h; cases h
    | ok n =>
      rw [h1] at h
      change (memReadFull _ 12 4).bind _ = _ at h
      cases h2 : memReadFull (responseBody response) 12 4 with
      | error e => rw [h2] at h; cases h
      | ok fields => rw [h2] at h; cases h; exact ⟨rfl, rfl⟩
  · cases h

/-- The records of a LOG_DECODE from one on, run to the end. -/
theorem runRecords_eq {n : Nat} {f : Framer} {s : State} (hs : s.framer = some f)
    (hn : f.index + n = f.records) (hp : 0 < n) :
    runRecords n s = .next (endRecords (framerRun Config.hw n f) s) := by
  induction n generalizing f s with
  | zero => omega
  | succ n ih =>
    have hrun : framerRun Config.hw (n + 1) f =
        (framerTurn Config.hw f).bind (framerRun Config.hw n) := rfl
    simp only [runRecords, hs]
    rw [recordTurn_framer hs, hrun]
    cases ht : framerTurn Config.hw f with
    | error e =>
      show runRecords n (endRecords (.error e) s) = .next (endRecords (.error e) s)
      cases n <;> rfl
    | ok f' =>
      obtain ⟨hi, hr⟩ := framerTurn_index ht
      show runRecords n (afterRecord (.ok f') s) = .next (endRecords (framerRun Config.hw n f') s)
      cases n with
      | zero =>
        have : ¬ f'.index < f'.records := by omega
        simp [afterRecord, this, runRecords, framerRun]
      | succ n =>
        have : f'.index < f'.records := by omega
        rw [show afterRecord (.ok f') s = { s with framer := some f' } by simp [afterRecord, this],
          ih (s := { s with framer := some f' }) rfl (by omega) (by omega)]
        rfl

/-- LOG_DECODE is refused in RX_WAIT; in IDLE it completes. -/
theorem execLogDecode_cases (response : List Byte) (s : State) :
    (s.phase = .rxWait ∧ execLogDecode response s = .next (complete .refused s)) ∨
    (s.phase = .idle ∧ ∃ r, execLogDecode response s = .next (endRecords r s)) := by
  unfold execLogDecode
  by_cases hp : s.phase = .rxWait
  · exact .inl ⟨hp, if_pos hp⟩
  · refine .inr ⟨Phase.ne_rxWait_iff.mp hp, ?_⟩
    rw [if_neg hp]
    split
    · exact ⟨_, rfl⟩
    · exact ⟨_, rfl⟩
    · rename_i f hf
      split
      · exact ⟨_, rfl⟩
      · obtain ⟨hi, -⟩ := logStart_index hf
        exact ⟨framerRun Config.hw f.records f, runRecords_eq (f := f) (s := { s with framer := some f }) rfl
          (n := f.records) (by omega) (by omega)⟩

/-! ### What is presented -/

/-- OPSEL 0 to 7 are operations and no records. -/
theorem decode_op_cases (opsel : BitVec 4) (operands : Operands) :
    (8 ≤ opsel.toNat ∧ decode (.op opsel operands) = .error (.reservedOpsel opsel)) ∨
    (opsel.toNat < 8 ∧ ∃ i, decode (.op opsel operands) = .ok i ∧
      ∀ rest, i ≠ .recHeader rest ∧ i ≠ .recData rest) := by
  by_cases h8 : 8 ≤ opsel.toNat
  · refine .inl ⟨h8, ?_⟩
    show decodeOp opsel operands = _
    unfold decodeOp
    split <;> first | omega | rfl
  · refine .inr ⟨by omega, ?_⟩
    show ∃ i, decodeOp opsel operands = .ok i ∧ _
    unfold decodeOp
    generalize opsel.toNat = n at h8
    match n, h8 with
    | 0, _ | 1, _ | 2, _ | 3, _ | 4, _ | 5, _ | 6, _ | 7, _ => exact ⟨_, rfl, by simp⟩
    | n + 8, h8 => omega

theorem decodeParts_no_record {p : Machine.FrameParts} {i : Instr} (h : decodeParts p = .ok i) :
    ∀ rest, i ≠ .recHeader rest ∧ i ≠ .recData rest := by
  unfold decodeParts at h
  intro rest
  repeat' (split at h <;> try cases h)
  all_goals simp

/-- A wire command is no record. -/
theorem decode_command_no_record {bytes : List Byte} {i : Instr}
    (h : decode (.command bytes) = .ok i) : ∀ rest, i ≠ .recHeader rest ∧ i ≠ .recData rest := by
  change decodeCommand bytes = _ at h
  unfold decodeCommand at h
  split at h
  · cases h
  split at h
  · unfold decodeFrame at h
    split at h
    · exact decodeParts_no_record h
    · cases h
  · unfold decodeLine at h
    intro rest
    split at h
    · cases h
    split at h
    · cases h; simp
    split at h
    · unfold decodeVi at h
      split at h <;> cases h
      simp
    · cases h

/-! ### The step -/

theorem step_event {s : State} {e : Event} {rest : List Event} (hf : s.framer = none)
    (ha : s.agenda = e :: rest) : step s = eventStep e (withAgenda s rest) := by
  unfold step
  rw [hf, ha]

/-- When the host is next, the step is its turn, whether the event stands in the agenda or none is
left. -/
theorem step_hostTurn {s : State} {rest : List Event} (h : HostIsNext s rest) :
    step s = .next (hostTurn (withAgenda s rest)) := by
  obtain ⟨hf, hp, ha | ⟨ha, rfl⟩⟩ := h
  · exact step_event hf ha
  · have hs : withAgenda s [] = s := by rw [← ha]; rfl
    simp [step, hf, ha, quietTurn, hp, hs]

/-- When the host is next and an exchange is in progress, the step is the exchange's next one. -/
theorem step_exchange {s : State} {rest : List Event} {x : Exchange} (h : HostIsNext s rest)
    (hx : s.session = some x) : step s = .next (exchangeStep x (withAgenda s rest)) := by
  rw [step_hostTurn h, hostTurn_idle (s := withAgenda s rest) hx h.2.1]

/-- What a step that gives a next state was. -/
inductive StepCases (s t : State) : Prop
  /-- The next record of the LOG_DECODE in progress. -/
  | record (f : Framer) (hf : s.framer = some f)
      (ht : t = afterRecord (framerTurn Config.hw f) s)
  /-- No event was left. -/
  | quiet (hf : s.framer = none) (ha : s.agenda = []) (ht : t = quietTurn s)
  /-- An Issue of an OPSEL that is no operation. -/
  | reserved (opsel : BitVec 4) (operands : Operands) (rest : List Event) (hf : s.framer = none)
      (ha : s.agenda = .issue opsel operands :: rest)
      (ht : t = complete .refused (withAgenda s rest))
  /-- An instruction, no record. -/
  | exec (i : Instr) (e : Event) (rest : List Event) (hf : s.framer = none)
      (ha : s.agenda = e :: rest) (hi : ∀ bytes, i ≠ .recHeader bytes ∧ i ≠ .recData bytes)
      (ht : exec i (withAgenda s rest) = .next t)
  | host (act : HostAct) (rest : List Event) (hf : s.framer = none)
      (ha : s.agenda = .host act :: rest) (ht : t = hostAct act (withAgenda s rest))
  | transport (act : TransportAct) (rest : List Event) (hf : s.framer = none)
      (ha : s.agenda = .transport act :: rest) (ht : t = transportAct act (withAgenda s rest))

theorem step_cases {s t : State} (h : step s = .next t) : StepCases s t := by
  unfold step at h
  split at h
  · rename_i f hf
    rw [recordTurn_framer hf] at h
    cases h
    exact .record f hf rfl
  · rename_i hf
    split at h
    · rename_i ha
      cases h
      exact .quiet hf ha rfl
    · rename_i e rest ha
      cases e with
      | issue opsel operands =>
        change issueStep opsel operands _ = _ at h
        unfold issueStep at h
        rcases decode_op_cases opsel operands with ⟨-, hd⟩ | ⟨-, i, hd, hi⟩ <;> rw [hd] at h
        · cases h
          exact .reserved opsel operands rest hf ha rfl
        · exact .exec i _ rest hf ha hi h
      | command bytes =>
        change commandStep bytes _ = _ at h
        unfold commandStep at h
        split at h
        · rename_i i hd
          exact .exec i _ rest hf ha (decode_command_no_record hd) h
        · cases h
      | host act => cases h; exact .host act rest hf ha rfl
      | transport act => cases h; exact .transport act rest hf ha rfl

end Sys2Proof.Machine
end

