-- ==== Sys2Proof/Tests/Slice0.lean ====
section
/-! SUPPORT. The model's own tests. Words and expected results are written out from the spec's encodings
(30_encoding.md, 44_logged_data.md, 45_session.md) and from 95_test_vectors.md; the vector is named at
each test. Then, for every statement that has hypotheses, operands and a state that meet them. -/

namespace Sys2Proof.Tests

open Sys2Proof.Machine

/-! ### States and results -/

/-- Station 5, a connection that stands, IDLE. -/
def ready (dialect : Dialect) : State := { State.resetWith 5 dialect with link := .opened }

/-- The same, with a FRAME_RX that has received some bytes and has the stream to come. -/
def waiting (dialect : Dialect) (rxbuf residue : List Byte) : State :=
  { ready dialect with phase := .rxWait, rxbuf := rxbuf, residue := residue }

/-- A state with one event to come. -/
def facing (e : Event) (s : State) : State := { s with agenda := [e] }

/-- The next state of an outcome. -/
def result : Outcome → Option State
  | .next s => some s
  | .fault _ | .refused _ => none

theorem eq_next {o : Outcome} {s : State} (h : result o = some s) : o = .next s := by
  cases o <;> simp_all [result]

theorem has_next {o : Outcome} (h : (result o).isSome = true) : ∃ s, o = .next s := by
  cases o <;> simp_all [result]

/-- What an instruction hands the host from the ready state. -/
def handed (i : Instr) (s : State := ready .binary) : Option (List Completion) :=
  (result (exec i s)).map State.completions

/-- What an instruction sends, and the exchange it leaves to come. -/
def sends (i : Instr) (s : State := ready .binary) : Option (List Byte × Phase × Option Exchange) :=
  (result (exec i s)).map fun t => (t.sent, t.phase, t.session)

/-- An exchange at the given step, the host next. -/
def exchanging (stage : Stage) (k : Await) (s : State := ready .binary) : State :=
  { s with session := some ⟨stage, k⟩ }

/-- What one step of an exchange sends, leaves to come and hands over. -/
def turned (stage : Stage) (k : Await) (s : State := ready .binary) :
    Option (List Byte × Option Exchange × List Completion) :=
  (result (step (exchanging stage k s))).map fun t => (t.sent, t.session, t.completions)

/-- What a step on one event leaves of the receive, and what it hands over. -/
def received (e : Event) (s : State) : Option (Phase × List Byte × List Byte × List Completion) :=
  (result (step (facing e s))).map fun t => (t.phase, t.rxbuf, t.residue, t.completions)

/-! ### Well-formedness: one ill-formed term for each check -/

theorem test_wf_getValues : (Instr.getValues 5 [4035]).wf = true := by decide
theorem test_wf_refuses_too_many_ids :
    (Instr.getValues 5 (List.replicate 16384 0)).wf = false := by
  decide +kernel
theorem test_wf_refuses_cr_in_id_line : (Instr.legacyId [0x41, 0x0D]).wf = false := by decide
theorem test_wf_refuses_lf_in_vi_line : (Instr.legacyVi [0x0A] 5).wf = false := by decide
theorem test_wf_refuses_three_digits : (Instr.legacyVi [0x41] 100).wf = false := by decide

/-! ### Decoding, words written out bit by bit -/

theorem test_decode_checksum :
    decode (.op 0b0000 { bytes := [0xAB] }) = .ok (.checksum [0xAB]) := by rfl
theorem test_decode_tsDecode :
    decode (.op 0b0001 { word := 0x60DEC8B8 }) = .ok (.tsDecode 0x60DEC8B8) := by rfl
theorem test_decode_tsEncode :
    decode (.op 0b0010 { dateTime := ⟨2024, 3, 15, 12, 34, 56⟩ }) =
      .ok (.tsEncode ⟨2024, 3, 15, 12, 34, 56⟩) := by rfl
theorem test_decode_frameBuild :
    decode (.op 0b0011 { command := 4, word := 4035, bytes := [1] }) =
      .ok (.frameBuild 4 4035 [1]) := by rfl
theorem test_decode_frameRx : decode (.op 0b0100 { bytes := [1] }) = .ok .frameRx := by rfl
theorem test_decode_frameValidate :
    decode (.op 0b0101 { bytes := [2] }) = .ok (.frameValidate [2]) := by rfl
theorem test_decode_respDecode :
    decode (.op 0b0110 { bytes := [3] }) = .ok (.respDecode [3]) := by rfl
theorem test_decode_logDecode :
    decode (.op 0b0111 { bytes := [4] }) = .ok (.logDecode [4]) := by rfl
theorem test_decode_reserved_opsel :
    decode (.op 0b1000 {}) = .error (.reservedOpsel 8) ∧
      decode (.op 0b1111 {}) = .error (.reservedOpsel 15) := ⟨rfl, rfl⟩

/-- V-L1-3. -/
theorem test_decode_getId :
    decode (.command [0b00000010, 0b00000101, 0b00000001, 0b00000011, 0b00000000, 0b00000000,
      0b00000101, 0b00000100]) = .ok (.getId 5) := by rfl
/-- V-L2-FB: station 0, ids 1001 and 1002. -/
theorem test_decode_getValues :
    decode (.command [0b00000010, 0b00000000, 0b00000100, 0b00000011, 0b00000000, 0b00001000,
      0x00, 0x00, 0x03, 0xE9, 0x00, 0x00, 0x03, 0xEA, 0x0E, 0b00000100]) =
      .ok (.getValues 0 [1001, 1002]) := by rfl
/-- V-L2-SES. -/
theorem test_decode_setValue :
    decode (.command [0b00000010, 0b00000101, 0b00000101, 0b00000011, 0b00000000, 0b00001000,
      0x00, 0x00, 0x0F, 0xC3, 0x00, 0x00, 0x00, 0x01, 0xC4, 0b00000100]) =
      .ok (.setValue 5 4035 1) := by rfl
/-- V-L2-SES. -/
theorem test_decode_getLogConfig :
    decode (.command [0b00000010, 0b00000101, 0b00000110, 0b00000011, 0b00000000, 0b00000000,
      0b00000010, 0b00000100]) = .ok (.getLogConfig 5) := by rfl
/-- V-L2-SES. -/
theorem test_decode_getLoggedData :
    decode (.command [0b00000010, 0b00000101, 0b00000111, 0b00000011, 0b00000000, 0b00001000,
      0x60, 0xDE, 0x00, 0x00, 0x60, 0xDE, 0xC8, 0xB8, 0x7B, 0b00000100]) =
      .ok (.getLoggedData 5 0x60DE0000 0x60DEC8B8) := by rfl
theorem test_decode_recHeader :
    decode (.record [0b00000001, 7]) = .ok (.recHeader [7]) := by rfl
theorem test_decode_recData : decode (.record [0b00000000, 7]) = .ok (.recData [7]) := by rfl
/-- `ID`, the text `5`, CR. -/
theorem test_decode_legacyId :
    decode (.command [0b01001001, 0b01000100, 0x35, 0b00001101]) = .ok (.legacyId [0x35]) := by
  decide
/-- `VI`, the text `5`, `07`, CR. -/
theorem test_decode_legacyVi :
    decode (.command [0b01010110, 0b01001001, 0x35, 0x30, 0x37, 0b00001101]) =
      .ok (.legacyVi [0x35] 7) := by decide

/-- Command codes 0, 2, 3 and 8 have no row (30_encoding.md R62). -/
theorem test_decode_reserved_commands :
    ([0, 2, 3, 8] : List Byte).map (fun c => decode (.command (frameBytes 5 c []))) =
      [.error (.commandCode 0), .error (.commandCode 2), .error (.commandCode 3),
        .error (.commandCode 8)] := by decide
/-- A wrong checksum, an id cut short, a record type 2, a line without its CR. -/
theorem test_decode_rejects :
    decode (.command [0x02, 0x05, 0x01, 0x03, 0x00, 0x00, 0x06, 0x04]) = .error .malformedFrame ∧
    decode (.command [0x02, 0x05, 0x04, 0x03, 0x00, 0x03, 0x00, 0x00, 0x00, 0x03, 0x04]) =
      .error (.msgData 4) ∧
    decode (.record [2]) = .error .recordType ∧ decode (.record []) = .error .recordType ∧
    decode (.command [0x49, 0x44]) = .error .malformedLine := by decide

/-- Every row of the opcode table, its word with the bits the row leaves free at 0. -/
theorem test_table_words :
    ([0x0, 0x1, 0x2, 0x3, 0x4, 0x5, 0x6, 0x7] : List Nat).map (decodeTableWord 4) =
      [some (.checksum []), some (.tsDecode 0), some (.tsEncode ⟨0, 0, 0, 0, 0, 0⟩),
        some (.frameBuild 0 0 []), some .frameRx, some (.frameValidate []),
        some (.respDecode []), some (.logDecode [])] ∧
    ([0x02000103, 0x02000403, 0x02000503, 0x02000603, 0x02000703] : List Nat).map
        (decodeTableWord 32) =
      [some (.getId 0), some (.getValues 0 []), some (.setValue 0 0 0), some (.getLogConfig 0),
        some (.getLoggedData 0 0 0)] ∧
    decodeTableWord 8 0x01 = some (.recHeader (List.replicate 18 0)) ∧
    decodeTableWord 8 0x00 = some (.recData (List.replicate 18 0)) ∧
    decodeTableWord 16 0x4944 = some (.legacyId []) ∧
    decodeTableWord 16 0x5649 = some (.legacyVi [] 0) := by decide

/-- The first step after reset runs the word that is placed: an operation completes, a wire command
is sent. -/
theorem test_withFetchWord_op :
    (result (step (State.reset.withFetchWord 4 0x0))).map State.completions =
      some [.ok (.byte 0)] := by decide
theorem test_withFetchWord_command :
    (result (step (State.reset.withFetchWord 32 0x02050103))).map State.sent =
      some [0x02, 0x05, 0x01, 0x03, 0x00, 0x00, 0x05, 0x04] := by decide

/-! ### The operations -/

/-- V-L2-CS. -/
theorem test_checksum :
    handed (.checksum [0x02, 0x05, 0x01, 0x03, 0x00, 0x00]) = some [.ok (.byte 0x05)] := by decide
theorem test_checksum_order : handed (.checksum [0xEF, 0xBE, 0xAD, 0xDE]) =
    some [.ok (.byte 0x22)] := by decide

/-- V-L2-TS: the largest value, and the month that is no month in front of an hour that is none. -/
theorem test_tsDecode_largest : handed (.tsDecode 0xFF3F7EFB) =
    some [.ok (.dateTime ⟨2063, 12, 31, 23, 59, 59⟩)] := by decide
theorem test_tsDecode_no_leap_year : handed (.tsDecode 0x5CBA0000) =
    some [.err .decodeError] := by decide

/-- V-L2-TS: bit 31 set; the year is checked before the month. -/
theorem test_tsEncode_top_bit : handed (.tsEncode ⟨2038, 1, 19, 3, 14, 7⟩) =
    some [.ok (.bytes [0x98, 0x66, 0x33, 0x87])] := by decide
theorem test_tsEncode_year_first :
    handed (.tsEncode ⟨1999, 13, 1, 0, 0, 0⟩) = some [.err .rangeError] ∧
      handed (.tsEncode ⟨2024, 13, 1, 0, 0, 0⟩) = some [.err .invalidArgument] := by decide

/-- V-L2-FB. -/
theorem test_frameBuild_parameter : handed (.frameBuild 4 4035 []) =
    some [.ok (.bytes [0x02, 0x05, 0x04, 0x03, 0x00, 0x04, 0x00, 0x00, 0x0F, 0xC3, 0xC8, 0x04])] := by
  decide
theorem test_frameBuild_undefined_command : handed (.frameBuild 9 0 [0x04]) =
    some [.ok (.bytes [0x02, 0x05, 0x09, 0x03, 0x00, 0x01, 0x04, 0x08, 0x04])] := by decide

/-- V-L2-FV: the station is reported, not compared; LENGTH 1 in a frame of 8 bytes. -/
theorem test_frameValidate_other_station :
    handed (.frameValidate [0x02, 0x06, 0x01, 0x03, 0x00, 0x00, 0x06, 0x04]) =
      some [.ok (.frame ⟨6, 1, []⟩)] := by decide
theorem test_frameValidate_length :
    handed (.frameValidate [0x02, 0x05, 0x01, 0x03, 0x00, 0x01, 0x05, 0x04]) =
      some [.err .decodeError] := by decide

/-- V-L2-RD: a negative integer; a LENGTH that is no multiple of 4. -/
theorem test_respDecode_signed :
    handed (.respDecode [0x02, 0x05, 0x04, 0x03, 0x00, 0x08, 0xFF, 0xFF, 0xFF, 0xFE, 0x00, 0x00,
      0x00, 0x07, 0x0E, 0x04]) = some [.ok (.ints [-2, 7])] := by decide
theorem test_respDecode_rounds_down :
    handed (.respDecode [0x02, 0x05, 0x04, 0x03, 0x00, 0x06, 0x00, 0x00, 0x00, 0x01, 0xAA, 0xBB,
      0x00, 0x04]) = some [.ok (.ints [1])] := by decide

/-- A record of V-L2-LOG-1's shape with an even interval of 60: type, timestamp, count, three words. -/
def record7 (type : Byte) (raw n a b c : Word) : List Byte :=
  [type, 0, 0, 0] ++ be32 raw ++ be32 60 ++ be32 n ++ be32 a ++ be32 b ++ be32 c

/-- V-L2-LOG-1. -/
def log1 : List Byte :=
  [0x02, 0x05, 0x07, 0x03, 0x00, 0x70] ++
  record7 0 0x60DEC8B8 3 0 0 0 ++ record7 1 0x60DEC8B8 2 1001 1002 0 ++
  record7 0 0x60DEC8B8 2 0x41480000 0xC0400000 0 ++
  record7 0 0x60DEC8F4 2 0xC0400000 0x41480000 0 ++ [0x3C, 0x04]

theorem test_logDecode : handed (.logDecode log1) = some [.ok (.records [
    ⟨[], ⟨2024, 3, 15, 12, 34, 56⟩, 60⟩,
    ⟨[(1001, .float 0x41480000), (1002, .float 0xC0400000)], ⟨2024, 3, 15, 12, 34, 56⟩, 60⟩,
    ⟨[(1001, .float 0xC0400000), (1002, .float 0x41480000)], ⟨2024, 3, 15, 12, 35, 52⟩, 60⟩])] := by
  decide +kernel

/-- V-L1-4 as its first record has it: the header's slice lacks the last byte of its second id. -/
def log2 : List Byte :=
  [0x02, 0x05, 0x07, 0x03, 0x00, 0x18, 0x01, 0x00, 0x00, 0x00, 0x60, 0xDE, 0xC8, 0xB8, 0x00, 0x00,
    0x00, 0x3C, 0x00, 0x00, 0x00, 0x02, 0x00, 0x00, 0x03, 0xE9, 0x00, 0x00, 0x03, 0xEA, 0x04, 0x04]

theorem test_logDecode_header_first : handed (.logDecode log2) = some [.err .decodeError] := by
  decide +kernel

/-- V-L1-4, whole, under the other readings of 93_implementation_defined.md U2 and U3, which the
decoder has although this hardware does not take them. -/
def vl14 : List Byte :=
  [0x02, 0x05, 0x07, 0x03, 0x00, 0x30] ++
  ([0x01, 0, 0, 0] ++ be32 0x60DEC8B8 ++ be32 60 ++ be32 2 ++ be32 1001 ++ be32 1002) ++
  ([0x00, 0, 0, 0] ++ be32 0x60DEC8B8 ++ be32 60 ++ be32 2 ++ be32 0x41480000 ++
    be32 0xC0400000) ++ [0xB8, 0x04]

theorem test_logDecode_no_margin :
    (match logDecode { Config.hw with sliceMargin := 0 } vl14 with
      | .ok rs => rs
      | .error _ => []) =
      [⟨[(1001, .float 0x41480000), (1002, .float 0xC0400000)], ⟨2024, 3, 15, 12, 34, 56⟩, 60⟩] := by
  decide +kernel
theorem test_logDecode_available_bytes :
    (match logDecode { Config.hw with shortRead := .availableBytes } vl14 with
      | .ok rs => rs
      | .error _ => []) =
      [⟨[(1001, .float 0x41480000), (3, .empty)], ⟨2024, 3, 15, 12, 34, 56⟩, 60⟩] := by
  decide +kernel

/-- V-L2-RX: bytes after an EOT are kept; a CR LF split over two chunks. -/
theorem test_frameRx_keeps_tail :
    received (.transport (.chunk 14)) (waiting .binary [] [0x02, 0x04, 0xAA, 0x04]) =
      some (.idle, [], [], [.ok (.bytes [0x02, 0x04, 0xAA, 0x04])]) := by decide +kernel
theorem test_frameRx_split_line_end :
    received (.transport (.chunk 1)) (waiting .legacy [0x30, 0x30, 0x30, 0x0D] [0x0A, 0x0A]) =
      some (.idle, [], [0x0A], [.ok (.bytes [0x30, 0x30, 0x30])]) := by decide +kernel

/-! ### Records -/

/-- The framer of V-L2-LOG-1 at its record 1 (P3 of 95_test_vectors.md). -/
def framer1 : Framer := ⟨responseBody log1, 7, 4, 1, [], []⟩

/-- 95_test_vectors.md P3, i = 1. -/
theorem test_recHeader :
    (result (step { ready .binary with framer := some framer1 })).map State.framer =
      some (some { framer1 with keys := [1001, 1002], index := 2 }) := by decide +kernel
/-- V-L2-LOG-2: key 1000 is not above 1000; its slot need not be there. -/
theorem test_recData_threshold :
    (result (exec (.recData ((record7 0 0x60DEC8B8 2 0 0xC0400000 0).tail))
        { ready .binary with framer := some { framer1 with records := 2, keys := [1000, 1001] } })).map
        State.completions =
      some [.ok (.records [⟨[(1000, .empty), (1001, .float 0xC0400000)],
        ⟨2024, 3, 15, 12, 34, 56⟩, 60⟩])] := by decide +kernel

/-! ### Wire commands and legacy lines, frames of V-L2-SES -/

theorem test_getId : sends (.getId 5) =
    some ([0x02, 0x05, 0x01, 0x03, 0x00, 0x00, 0x05, 0x04], .idle, some ⟨.receive, .words⟩) := by decide
theorem test_getValues : sends (.getValues 0 [1001, 1002]) =
    some ([0x02, 0x00, 0x04, 0x03, 0x00, 0x08, 0x00, 0x00, 0x03, 0xE9, 0x00, 0x00, 0x03, 0xEA,
      0x0E, 0x04], .idle, some ⟨.receive, .words⟩) := by decide
theorem test_setValue : sends (.setValue 5 4035 1) =
    some ([0x02, 0x05, 0x05, 0x03, 0x00, 0x08, 0x00, 0x00, 0x0F, 0xC3, 0x00, 0x00, 0x00, 0x01,
      0xC4, 0x04], .idle, some ⟨.receive, .words⟩) := by decide
theorem test_getLogConfig : sends (.getLogConfig 5) =
    some ([0x02, 0x05, 0x06, 0x03, 0x00, 0x00, 0x02, 0x04], .idle, some ⟨.receive, .words⟩) := by decide
theorem test_getLoggedData : sends (.getLoggedData 5 0x60DE0000 0x60DEC8B8) =
    some ([0x02, 0x05, 0x07, 0x03, 0x00, 0x08, 0x60, 0xDE, 0x00, 0x00, 0x60, 0xDE, 0xC8, 0xB8,
      0x7B, 0x04], .idle, some ⟨.receive, .records⟩) := by decide
theorem test_legacyId : sends (.legacyId [0x35]) (ready .legacy) =
    some ([0x49, 0x44, 0x35, 0x0D], .idle, some ⟨.receive, .text⟩) := by decide
theorem test_legacyVi : sends (.legacyVi [0x35] 7) (ready .legacy) =
    some ([0x56, 0x49, 0x35, 0x30, 0x37, 0x0D], .idle, some ⟨.receive, .text⟩) := by decide

/-! ### The session -/

/-- V-L2-SES: get_logged_data(1999-01-01 00:00:00, any) sends nothing and fails with RangeError. -/
theorem test_get_logged_data_range :
    turned (.encodeStart ⟨1999, 1, 1, 0, 0, 0⟩ ⟨2024, 3, 15, 0, 0, 0⟩) .records =
      some ([], none, [.err .rangeError]) := by decide
/-- V-L2-SES: the frame of set_parameter_value(4035, 1). -/
theorem test_set_parameter_value_frame :
    turned (.build 5 4035 (be32 1)) .words = some ([], some ⟨.send [0x02, 0x05, 0x05, 0x03, 0x00,
      0x08, 0x00, 0x00, 0x0F, 0xC3, 0x00, 0x00, 0x00, 0x01, 0xC4, 0x04], .words⟩, []) := by decide
/-- 60_exceptions.md R210: a disconnect between the two exchanges of identify is met by the second
send. -/
theorem test_disconnect_between_exchanges :
    turned (.send [0x02, 0x05, 0x01, 0x03, 0x00, 0x00, 0x05, 0x04]) (.identifySecond [7])
      { ready .binary with link := .dropped } =
      some ([], none, [.err .connectionError]) := by decide
/-- P6 of 95_test_vectors.md, poll 2: ZeroCheck is reached. -/
theorem test_set_operating_state_reached :
    turned (.decode [0x02, 0x05, 0x04, 0x03, 0x00, 0x04, 0x00, 0x00, 0x00, 0x01, 0x05, 0x04])
      (.setStatePoll .zeroCheck 2) = some ([], none, [.ok .stateReached]) := by decide +kernel

/-! ### Witnesses: for each statement with hypotheses, values that meet them together -/

theorem witness_ResetEventAbandonsReceive :
    let s := facing (.host (.reset 7 .legacy)) (waiting .binary [0x02] [])
    s.framer = none ∧ s.agenda = [.host (.reset 7 .legacy)] := by decide

theorem witness_OnlyResetChangesStraps :
    let s := facing (.host (.call .identify)) (ready .binary)
    (∃ t, step s = .next t) ∧
      (∀ station dialect rest,
        s.framer = none → s.agenda ≠ .host (.reset station dialect) :: rest) :=
  ⟨⟨_, rfl⟩, by simp [facing]⟩

/-- The seven operations of the block need only IDLE and no LOG_DECODE in progress. -/
theorem witness_ChecksumDeliversXor :
    (ready .binary).phase = .idle ∧ (ready .binary).framer = none := ⟨rfl, rfl⟩

theorem witness_ChecksumLaws :
    8 ≤ ([0x02, 0x05, 0x01, 0x03, 0x00, 0x00, 0x05, 0x04] : List Byte).length := by decide

/-- 2024-03-15 12:34:56, then month 0. -/
theorem witness_TsDecodeDeliversFields :
    (ready .binary).phase = .idle ∧
    (56 = (0x60DEC8B8 : Word).toNat % 64 ∧ 34 = (0x60DEC8B8 : Word).toNat / 2 ^ 6 % 64 ∧
      12 = (0x60DEC8B8 : Word).toNat / 2 ^ 12 % 32 ∧ 15 = (0x60DEC8B8 : Word).toNat / 2 ^ 17 % 32 ∧
      3 = (0x60DEC8B8 : Word).toNat / 2 ^ 22 % 16 ∧
      2024 = (0x60DEC8B8 : Word).toNat / 2 ^ 26 + 2000) ∧
    (0 = (0 : Word).toNat / 2 ^ 22 % 16 ∧ 2000 = (0 : Word).toNat / 2 ^ 26 + 2000) := by decide

/-- The last year below, the first and the last year within, the first year above the range. -/
theorem witness_TsEncodeDeliversBytes :
    (ready .binary).phase = .idle ∧
    ((⟨1999, 12, 31, 23, 59, 59⟩ : DateTime).year < 2000 ∧
      2063 < (⟨2064, 1, 1, 0, 0, 0⟩ : DateTime).year) ∧
    validDateTime ⟨2000, 2, 30, 0, 0, 0⟩ = false ∧
    validDateTime ⟨2000, 1, 1, 0, 0, 0⟩ = true ∧
    validDateTime ⟨2063, 12, 31, 23, 59, 59⟩ = true := by decide

theorem witness_TimestampRoundTrip :
    (ready .binary).phase = .idle ∧ validDateTime ⟨2063, 12, 31, 23, 59, 59⟩ = true ∧
    exec (.tsDecode 0x00420000) (ready .binary) =
      .next { ready .binary with completions := (ready .binary).completions ++
        [.ok (.dateTime ⟨2000, 1, 1, 0, 0, 0⟩)] } :=
  ⟨rfl, by decide, eq_next (by decide)⟩

/-- With and without a parameter id. -/
theorem witness_FrameBuildDeliversFrame :
    (ready .binary).phase = .idle ∧
    ([0, 0, 0x0F, 0xC3, 7] : List Byte) = (if (4035 : Word) = 0 then [] else
      [BitVec.ofNat 8 ((4035 : Word).toNat / 2 ^ 24), BitVec.ofNat 8 ((4035 : Word).toNat / 2 ^ 16),
        BitVec.ofNat 8 ((4035 : Word).toNat / 2 ^ 8), BitVec.ofNat 8 (4035 : Word).toNat]) ++ [7] ∧
    ([0x02, 5, 4, 0x03, 0, 5, 0, 0, 0x0F, 0xC3, 7] : List Byte) =
      [0x02, (ready .binary).stationId, 4, 0x03,
        BitVec.ofNat 8 (([0, 0, 0x0F, 0xC3, 7] : List Byte).length / 256),
        BitVec.ofNat 8 ([0, 0, 0x0F, 0xC3, 7] : List Byte).length] ++ [0, 0, 0x0F, 0xC3, 7] := by
  decide

/-- V-L2-FV: a frame of command 4, and one whose checksum is wrong. -/
theorem witness_FrameValidateChecksFourConditions :
    (ready .binary).phase = .idle ∧ ([0, 0, 0, 1] : List Byte).length ≤ 65535 ∧
    ¬ (8 ≤ ([0x02, 0x05, 0x01, 0x03, 0, 0, 0x06, 0x04] : List Byte).length ∧
      ([0x02, 0x05, 0x01, 0x03, 0, 0, 0x06, 0x04] : List Byte)[6]? =
        some (xorAll [0x02, 0x05, 0x01, 0x03, 0, 0])) := by decide

/-- V-L1-3. -/
def idFrame : List Byte := [0x02, 0x05, 0x01, 0x03, 0x00, 0x00, 0x05, 0x04]

theorem idFrame_accepted : exec (.frameValidate idFrame) (ready .binary) =
    .next { ready .binary with completions := (ready .binary).completions ++
      [.ok (.frame ⟨5, 1, []⟩)] } := eq_next (by decide)

theorem witness_BuildAndValidateAgree :
    (ready .binary).phase = .idle ∧ (ready .binary).stationId = 5 ∧
    exec (.frameBuild 1 0 []) (ready .binary) =
      .next { ready .binary with completions := (ready .binary).completions ++
        [.ok (.bytes idFrame)] } ∧
    exec (.frameValidate idFrame) (ready .binary) =
      .next { ready .binary with completions := (ready .binary).completions ++
        [.ok (.frame ⟨5, 1, []⟩)] } :=
  ⟨rfl, rfl, eq_next (by decide), idFrame_accepted⟩

/-- The shortest and the longest proper prefix. -/
theorem witness_ValidateRejectsProperPrefixes :
    (ready .binary).phase = .idle ∧
    exec (.frameValidate idFrame) (ready .binary) =
      .next { ready .binary with completions := (ready .binary).completions ++
        [.ok (.frame ⟨5, 1, []⟩)] } ∧ 0 < idFrame.length ∧ 7 < idFrame.length :=
  ⟨rfl, idFrame_accepted, by decide, by decide⟩

/-- The first byte and the checksum byte. -/
theorem witness_ValidateRejectsOneChangedByte :
    (ready .binary).phase = .idle ∧
    exec (.frameValidate idFrame) (ready .binary) =
      .next { ready .binary with completions := (ready .binary).completions ++
        [.ok (.frame ⟨5, 1, []⟩)] } ∧
    (0 < idFrame.length - 1 ∧ idFrame[0]? ≠ some 0x03) ∧
    (6 < idFrame.length - 1 ∧ idFrame[6]? ≠ some 0x04) :=
  ⟨rfl, idFrame_accepted, by decide, by decide⟩

/-- One word that is there; one word that lacks its last byte. -/
theorem witness_RespDecodeDeliversSignedWords :
    (ready .binary).phase = .idle ∧
    (1 = ((([0xFF, 0xFF, 0xFF, 0xFF, 0, 4, 0, 0, 0, 1] : List Byte).getD 4 0).toNat * 256 +
        (([0xFF, 0xFF, 0xFF, 0xFF, 0, 4, 0, 0, 0, 1] : List Byte).getD 5 0).toNat) / 4 ∧
      6 + 4 * 1 ≤ ([0xFF, 0xFF, 0xFF, 0xFF, 0, 4, 0, 0, 0, 1] : List Byte).length) ∧
    ¬ (6 + 4 * 1 ≤ ([0xFF, 0xFF, 0xFF, 0xFF, 0, 4, 0, 0, 0] : List Byte).length) := by decide

theorem witness_RespDecodeIgnoresHeaderAndTail :
    ([2, 5, 4, 3] : List Byte).length = 4 ∧ ([0, 0, 0, 0] : List Byte).length = 4 ∧
    ([0, 7] : List Byte).length = 2 ∧
    ([0, 0, 0, 1] : List Byte).length = 4 * (beNat [0, 7] / 4) := by decide

/-- V-L2-LOG-3: another command, five bytes, and fewer words than a record has. -/
theorem witness_LogDecodeWithoutRecords :
    (ready .binary).phase = .idle ∧ (ready .binary).framer = none ∧
    idFrame[2]? ≠ some 7 ∧
    (([2, 5, 7, 3, 0] : List Byte)[2]? = some 7 ∧ ([2, 5, 7, 3, 0] : List Byte).length < 24) ∧
    (log2[2]? = some 7 ∧ 24 ≤ log2.length ∧
      beNat (((log2.set 5 0x14).drop 18).take 4) = 2 ∧
      (((log2.set 5 0x14).getD 4 0).toNat * 256 + ((log2.set 5 0x14).getD 5 0).toNat) / 4 < 2 + 4) := by
  decide

theorem witness_LogDecodeHeaderFirstFails :
    (ready .binary).phase = .idle ∧ (ready .binary).framer = none ∧ log2[2]? = some 7 ∧
    24 ≤ log2.length ∧ 6 = ((log2.getD 4 0).toNat * 256 + (log2.getD 5 0).toNat) / 4 ∧
    2 = beNat ((log2.drop 18).take 4) ∧ 2 + 4 ≤ 6 ∧ log2[6]? = some 1 := by decide

theorem witness_LogDecodeIsTheWholeAlgorithm :
    (ready .legacy).phase = .idle ∧ (ready .legacy).framer = none := ⟨rfl, rfl⟩

theorem witness_LogDecodeRefinedByRecordSteps :
    (ready .binary).phase = .idle ∧ (ready .binary).framer = none ∧
    log1[2]? = some 7 ∧ 24 ≤ log1.length ∧
    28 = ((log1.getD 4 0).toNat * 256 + (log1.getD 5 0).toNat) / 4 ∧
    3 = beNat ((log1.drop 18).take 4) ∧ 3 + 4 ≤ 28 ∧
    ∃ f : Framer, f = ⟨(log1.drop 6).take (log1.length - 8), 3 + 4, 28 / (3 + 4), 0, [], []⟩ := by
  refine ⟨rfl, rfl, ?_, ?_, ?_, ?_, by decide, _, rfl⟩ <;> decide +kernel

theorem witness_OpselSelectsOperation :
    8 ≤ (8 : BitVec 4).toNat ∧ 8 ≤ (15 : BitVec 4).toNat := by decide

theorem witness_FrameRxBeginsReceive : (ready .binary).phase = .idle := rfl

theorem witness_PureOperationsDependOnOperands :
    (ready .binary).phase = .idle ∧ (ready .binary).framer = none ∧
      (ready .binary).stationId = 5 := ⟨rfl, rfl, rfl⟩

/-- In RX_WAIT, and in IDLE with the first OPSEL that is no operation. -/
theorem witness_IssueRefused :
    (let s := facing (.issue 0 { bytes := [1] }) (waiting .binary [] [])
     s.framer = none ∧ s.agenda = [.issue 0 { bytes := [1] }] ∧ s.phase = .rxWait) ∧
    (let s := facing (.issue 8 {}) (ready .binary)
     s.framer = none ∧ s.agenda = [.issue 8 {}] ∧ 8 ≤ (8 : BitVec 4).toNat) := by decide

/-- A chunk that ends with 0x04 and one that does not. -/
theorem witness_BinaryChunk :
    (let s := facing (.transport (.chunk 2)) (waiting .binary [2] [5, 4, 9])
     s.framer = none ∧ s.agenda = [.transport (.chunk 2)] ∧ s.phase = .rxWait ∧ s.session = none ∧
     s.dialect = .binary ∧ [5, 4] = s.residue.take 2 ∧
     s.rxbuf.length + 2 ≤ Config.hw.rxbufMax ∧ ([5, 4] : List Byte).getLast? = some 0x04) ∧
    (let s := facing (.transport (.chunk 1)) (waiting .binary [2] [5, 4, 9])
     s.phase = .rxWait ∧ [5] = s.residue.take 1 ∧
      ([5] : List Byte).getLast? ≠ some 0x04) := by decide +kernel

/-- A line `A` with blanks before its CR LF, the terminator split over two chunks; and a lone LF. -/
theorem witness_LegacyChunk :
    let s := facing (.transport (.chunk 1)) (waiting .legacy [0x41, 0x20, 0x0D] [0x0A])
    (s.framer = none ∧ s.agenda = [.transport (.chunk 1)] ∧ s.phase = .rxWait ∧
      s.session = none ∧ s.dialect = .legacy ∧ [0x0A] = s.residue.take 1 ∧
      s.rxbuf.length + 1 ≤ Config.hw.rxbufMax ∧
      [0x0D, 0x0A] <:+ s.rxbuf ++ [0x0A] ∧
      ¬ ([0x0D, 0x0A] <:+ ([0x0A] : List Byte) ∨ [0x0D, 0x0A, 0x0A] <:+ ([0x0A] : List Byte)) ∧
      s.rxbuf ++ [0x0A] = [0x41] ++ [0x20, 0x0D, 0x0A] ∧
      (∀ b ∈ ([0x20, 0x0D, 0x0A] : List Byte),
        b ∈ ([0x09, 0x0A, 0x0B, 0x0C, 0x0D, 0x20] : List Byte))) ∧
    (∀ b, ([0x41] : List Byte).getLast? = some b →
      b ∉ ([0x09, 0x0A, 0x0B, 0x0C, 0x0D, 0x20] : List Byte)) := by
  refine ⟨by decide +kernel, ?_⟩
  rintro b ⟨⟩
  decide

/-- A full buffer of any bytes, and one byte more, the EOT. -/
theorem witness_OverflowIsDecodeError :
    let s := facing (.transport (.chunk 1))
      (waiting .binary (List.replicate Config.hw.rxbufMax 0) [0x04])
    s.framer = none ∧ s.agenda = [.transport (.chunk 1)] ∧ s.phase = .rxWait ∧
    [0x04] = s.residue.take 1 ∧ ([0x04] : List Byte) ≠ [] ∧
    Config.hw.rxbufMax < s.rxbuf.length + ([0x04] : List Byte).length := by
  refine ⟨rfl, rfl, rfl, rfl, by decide, ?_⟩
  simp [facing, waiting]

theorem witness_TimeoutIsTimeoutError :
    let s := facing (.transport .timeout)
      (exchanging .waiting .identifyFirst (waiting .binary [0x02, 0x05] []))
    s.framer = none ∧ s.agenda = [.transport .timeout] ∧ s.phase = .rxWait := by decide

/-- The three events, the read of no bytes on an empty stream. -/
theorem witness_DisconnectIsConnectionError :
    ∀ e ∈ [Event.transport .disconnect, .host .closeLink, .transport (.chunk 1)],
      let s := facing e (waiting .legacy [0x30] [])
      s.framer = none ∧ s.agenda = [e] ∧ s.phase = .rxWait ∧ s.residue.take 1 = [] := by decide

theorem witness_IdleConsumesNoTransportEvent :
    let s := facing (.transport (.arrive [1])) (ready .binary)
    s.framer = none ∧ s.agenda = [.transport (.arrive [1])] ∧ s.phase = .idle ∧
      ∃ t, step s = .next t := ⟨rfl, rfl, rfl, _, rfl⟩

theorem witness_DroppedConnectionIsMet :
    (let s := facing (.transport .disconnect) (ready .binary)
     s.framer = none ∧ s.agenda = [.transport .disconnect] ∧ s.phase = .idle ∧
      s.link = .opened) ∧
    (let s := facing (.host (.send [2])) { ready .binary with link := .dropped }
     s.framer = none ∧ s.agenda = [.host (.send [2])] ∧ s.link = .dropped) ∧
    (let s := exchanging (.send [2]) .words { ready .binary with link := .dropped }
     HostIsNext s [] ∧ s.session = some ⟨.send [2], .words⟩ ∧ s.link = .dropped) ∧
    (let s := { waiting .binary [2] [] with link := .dropped }
     s.framer = none ∧ s.agenda = [] ∧ s.phase = .rxWait ∧ s.link = .dropped ∧
      s.residue = []) := by decide

theorem witness_StreamKeepsEveryByteInOrder :
    let s := facing (.transport (.chunk 2)) (waiting .binary [2] [5, 4, 9])
    (s.framer = none ∧ s.agenda = [.transport (.chunk 2)] ∧ s.phase = .rxWait ∧
      s.dialect = .binary ∧ s.residue.take 2 ≠ [] ∧
      s.rxbuf.length + (s.residue.take 2).length ≤ Config.hw.rxbufMax) ∧
    ∃ t, step s = .next t := ⟨by decide +kernel, has_next (by decide +kernel)⟩

/-- Two ids; no id; and slices one byte too short for the count and for the second id. -/
theorem witness_HeaderRecordReplacesKeys :
    (let s := { ready .binary with framer := some framer1 }
     s.framer = some framer1 ∧ (List.replicate 11 (0 : Byte)).length = 11 ∧
      ([1001, 1002] : List Word).length = (2 : Word).toNat ∧
      ([] : List Word).length = (0 : Word).toNat) ∧
    (List.replicate 14 (0 : Byte)).length < 15 ∧
    (let rest := List.replicate 11 0 ++ be32 2 ++ List.replicate 7 0
     rest.length < 15 + 4 * beNat ((rest.drop 11).take 4)) := by decide +kernel

/-- The data record of test_recData_threshold: a key on the threshold, a key above it. -/
theorem witness_DataRecordAppendsRecord :
    let f : Framer := { framer1 with keys := [1000, 1001] }
    let slots := be32 0 ++ be32 0xC0400000
    let pairs : List (Word × FieldValue) := [(1000, .empty), (1001, .float 0xC0400000)]
    ([0, 0, 0] : List Byte).length = 3 ∧
    Machine.tsDecode 0x60DEC8B8 = .ok ⟨2024, 3, 15, 12, 34, 56⟩ ∧
    (∀ (k : Nat) (key : Word), (f.keys.take (2 : Word).toNat)[k]? = some key → 1000 < key.toNat →
      4 * k + 4 ≤ slots.length) ∧
    pairs.length = min (2 : Word).toNat f.keys.length ∧
    (∀ (k : Nat) (key : Word), (f.keys.take (2 : Word).toNat)[k]? = some key →
      pairs[k]? = some (key, if 1000 < key.toNat then
        .float (slots.getD (4 * k) 0 ++ slots.getD (4 * k + 1) 0 ++ slots.getD (4 * k + 2) 0 ++
          slots.getD (4 * k + 3) 0) else .empty)) := by
  refine ⟨rfl, rfl, ?_, rfl, ?_⟩
  · rintro (_ | _ | k) key ⟨⟩ h <;> decide
  · rintro (_ | _ | k) key ⟨⟩ <;> decide

/-- A slice one byte too short; month 0; a float slot that lacks its last byte. -/
theorem witness_DataRecordFailures :
    (List.replicate 14 (0 : Byte)).length < 15 ∧ ([0, 0, 0] : List Byte).length = 3 ∧
    Machine.tsDecode 0 = .error .decodeError ∧
    ∃ (k : Nat) (key : Word), (([1000, 1001] : List Word).take (2 : Word).toNat)[k]? = some key ∧
      1000 < key.toNat ∧ (List.replicate 7 (0 : Byte)).length < 4 * k + 4 :=
  ⟨by decide, rfl, rfl, 1, 1001, by decide⟩

theorem witness_RecordByItself :
    ((waiting .binary [] []).framer = none ∧ (waiting .binary [] []).phase = .rxWait) ∧
    ((ready .binary).framer = none ∧ (ready .binary).phase = .idle ∧
      (List.replicate 11 (0 : Byte)).length = 11 ∧ ([1001] : List Word).length = (1 : Word).toNat) ∧
    Machine.tsDecode 0x60DEC8B8 = .ok ⟨2024, 3, 15, 12, 34, 56⟩ := ⟨by decide, by decide, rfl⟩

/-- Type byte 2, the first reserved one; and an empty slice, past the end of the body. -/
theorem witness_OtherRecordTypeFails :
    ∀ f ∈ [framerAt (List.replicate 19 2), { framer1 with index := 9 }],
      (f.currentSlice Config.hw)[0]? ≠ some 0 ∧ (f.currentSlice Config.hw)[0]? ≠ some 1 := by
  decide +kernel

/-- Record 1 of V-L2-LOG-1. -/
theorem witness_RecordSliceIsOneByteShort :
    let before := record7 0 0x60DEC8B8 3 0 0 0
    let whole := record7 1 0x60DEC8B8 2 1001 1002 0
    let window := whole.take 27
    framer1.body = before ++ window ++ [0] ++ framer1.body.drop 56 ∧
    before.length = framer1.index * (4 * framer1.itemsPerRecord) ∧
    window.length + 1 = 4 * framer1.itemsPerRecord := by decide +kernel

theorem witness_StepRunsDecodedInstruction :
    ((facing (.issue 0 { bytes := [1] }) (ready .binary)).framer = none ∧
      decode (.op 0 { bytes := [1] }) = .ok (.checksum [1])) ∧
    ((facing (.command idFrame) (ready .binary)).framer = none ∧
      decode (.command idFrame) = .ok (.getId 5)) ∧
    decode (.command [0x02]) = .error .malformedFrame ∧
    decode (fetchRecord (framerAt (0x01 :: List.replicate 18 0))) =
      .ok (.recHeader (List.replicate 18 0)) := by decide

/-- The longest GET_VALUES that fits, and the last VI parameter. -/
theorem witness_DecodeOfEncode :
    (Instr.getValues 0 (List.replicate 16383 0)).wf = true ∧
      (Instr.legacyVi [0x35] 99).wf = true := by decide +kernel

theorem witness_EncodeOfDecode :
    decode (.command idFrame) = .ok (.getId 5) ∧ decode (.record [1]) = .ok (.recHeader []) := by
  decide

/-- A connection that stands, and one that can be opened; the longest list of ids. -/
theorem witness_WireCommandsSendTheirFrame :
    (ready .binary).phase = .idle ∧ (ready .binary).session = none ∧
    (ready .binary).dialect = .binary ∧ (ready .binary).link = .opened ∧
    ((State.resetWith 5 .binary).link = .closed ∧ (State.resetWith 5 .binary).reachable = true) ∧
    4 * (List.replicate 16383 (0 : Word)).length ≤ 65535 ∧
    ∃ after : List Byte → Await → State, ∀ bytes k, after bytes k = { ready .binary with
      link := .opened,
      residue := if (ready .binary).link = .opened then (ready .binary).residue else [],
      sent := (ready .binary).sent ++ bytes, session := some ⟨.receive, k⟩ } :=
  ⟨rfl, rfl, rfl, rfl, ⟨rfl, rfl⟩, by decide +kernel, _, fun _ _ => rfl⟩

theorem witness_LegacyLinesAreSent :
    (ready .legacy).phase = .idle ∧ (ready .legacy).session = none ∧
    (ready .legacy).dialect = .legacy ∧ (ready .legacy).link = .opened ∧ (9 : Nat) < 10 ∧
    ∃ after : List Byte → State, ∀ bytes, after bytes = { ready .legacy with
      link := .opened,
      residue := if (ready .legacy).link = .opened then (ready .legacy).residue else [],
      sent := (ready .legacy).sent ++ bytes, session := some ⟨.receive, .text⟩ } :=
  ⟨rfl, rfl, rfl, rfl, by decide, _, fun _ => rfl⟩

/-- Each clause: in RX_WAIT, with an exchange in progress, in the other dialect, dropped, not reachable, too many ids. -/
theorem witness_WireCommandsTurnedAway :
    (Instr.getId 5).wf = true ∧ (waiting .binary [] []).phase = .rxWait ∧
    (exchanging .receive .words).session ≠ none ∧
    ((ready .legacy).phase = .idle ∧ (ready .legacy).session = none ∧
      (ready .legacy).dialect ≠ .binary) ∧
    ((ready .binary).phase = .idle ∧ (ready .binary).session = none ∧
      (ready .binary).dialect = .binary) ∧
    { ready .binary with link := .dropped }.link = .dropped ∧
    ({ State.resetWith 5 .binary with reachable := false }.link = .closed ∧
      { State.resetWith 5 .binary with reachable := false }.reachable = false) ∧
    65535 < 4 * (List.replicate 16384 (0 : Word)).length := by decide +kernel

/-- Each stage, the host next; and an event for it in RX_WAIT. -/
theorem witness_ExchangeSteps :
    (∀ stage ∈ [Stage.build 5 4035 [0, 0, 0, 1], .build 5 0 [0, 0, 0, 1], .send [2], .receive,
        .validate [2]],
      let s := exchanging stage .words
      HostIsNext s [] ∧ s.session = some ⟨stage, .words⟩ ∧ s.link = .opened) ∧
    ([0, 0, 0x0F, 0xC3, 0, 0, 0, 1] : List Byte) =
      (if (4035 : Word) = 0 then [] else be32 4035) ++ [0, 0, 0, 1] ∧
    ([0x02, 5, 5, 0x03, 0, 8, 0, 0, 0x0F, 0xC3, 0, 0, 0, 1] : List Byte) =
      [0x02, (exchanging .receive .words).stationId, 5, 0x03, BitVec.ofNat 8 (8 / 256),
        BitVec.ofNat 8 8] ++ [0, 0, 0x0F, 0xC3, 0, 0, 0, 1] ∧
    ((exchanging (.send [2]) .words (State.resetWith 5 .binary)).link = .closed ∧
      (exchanging (.send [2]) .words (State.resetWith 5 .binary)).reachable = true) ∧
    (let s := facing (.host .proceed) (exchanging .waiting .words (waiting .binary [] []))
     s.framer = none ∧ s.agenda = [.host .proceed] ∧ s.phase = .rxWait) := by decide

/-- Each of the four operations, called in BINARY; and one called in RX_WAIT. -/
theorem witness_SessionCallsBeginTheirExchange :
    (∀ op ∈ [SessionOp.setParameterValue 0 1, .getLoggingConfiguration, .getOperatingState,
        .setOperatingState .spanCheck],
      let s := facing (.host (.call op)) (ready .binary)
      s.framer = none ∧ s.agenda = [.host (.call op)] ∧ s.phase = .idle ∧ s.session = none ∧
        s.dialect = .binary) ∧
    (facing (.host (.call .identify)) (waiting .binary [] [])).phase = .rxWait ∧
    (facing (.host (.call .identify)) (exchanging .receive .words)).session ≠ none := by decide

/-- The response `[1]` of V-L2-RD. -/
def oneFrame : List Byte := [0x02, 0x05, 0x04, 0x03, 0, 4, 0, 0, 0, 1, 0x05, 0x04]

theorem oneFrame_decodes : respDecode Config.hw oneFrame = .ok [1] := by decide +kernel

/-- The host is next, by its event or with none left, at the last step of an exchange. -/
theorem decoding_hypotheses (response : List Byte) (k : Await) :
    HostIsNext (exchanging (.decode response) k) [] ∧
    HostIsNext (facing (.host .proceed) (exchanging (.decode response) k)) [] ∧
    (exchanging (.decode response) k).session = some ⟨.decode response, k⟩ :=
  ⟨⟨rfl, rfl, .inr ⟨rfl, rfl⟩⟩, ⟨rfl, rfl, .inl rfl⟩, rfl⟩

/-- A response in BINARY and one in LEGACY, a blank before its CR LF; each kind of exchange; and a
response that RESP_DECODE fails on. -/
theorem witness_ResponseIsDecoded :
    (let s := facing (.transport (.chunk 2)) (exchanging .waiting .words (waiting .binary [2] [5, 4]))
     s.framer = none ∧ s.agenda = [.transport (.chunk 2)] ∧ s.phase = .rxWait ∧
      s.session = some ⟨.waiting, .words⟩ ∧ s.residue.take 2 ≠ [] ∧
      s.rxbuf.length + (s.residue.take 2).length ≤ Config.hw.rxbufMax ∧
      s.rxbuf ++ s.residue.take 2 = [2, 5, 4] ++ [] ∧ s.dialect = .binary ∧
      ([2, 5, 4] : List Byte).getLast? = some 0x04) ∧
    (let s := facing (.transport (.chunk 2))
      (exchanging .waiting .text (waiting .legacy [0x41, 0x20] [0x0D, 0x0A]))
     s.phase = .rxWait ∧ s.session = some ⟨.waiting, .text⟩ ∧ s.residue.take 2 ≠ [] ∧
      s.rxbuf ++ s.residue.take 2 = [0x41] ++ [0x20, 0x0D, 0x0A] ∧ s.dialect = .legacy ∧
      [0x0D, 0x0A] <:+ ([0x41] ++ [0x20, 0x0D, 0x0A] : List Byte)) ∧
    (∀ k ∈ [Await.words, .records, .logConfig, .text, .identifyFirst],
      HostIsNext (exchanging (.decode oneFrame) k) [] ∧
        (exchanging (.decode oneFrame) k).session = some ⟨.decode oneFrame, k⟩) ∧
    respDecode Config.hw [0x02, 0x05] = .error .decodeError :=
  ⟨by decide +kernel, by decide +kernel, fun k _ => ⟨(decoding_hypotheses oneFrame k).1, rfl⟩, rfl⟩

theorem witness_UnsupportedInLegacy :
    ∀ op ∈ [SessionOp.setParameterValue 1 1, .getLoggingConfiguration, .getLoggedData none none,
        .setOperatingState .normal],
      let s := facing (.host (.call op)) (ready .legacy)
      s.framer = none ∧ s.agenda = [.host (.call op)] ∧ s.phase = .idle ∧ s.session = none ∧
        s.dialect = .legacy := by decide

/-- The call in both dialects; then the first and the second response. -/
theorem witness_IdentifySendsTwice :
    (∀ d ∈ [Dialect.binary, .legacy],
      let s := facing (.host (.call .identify)) (ready d)
      s.framer = none ∧ s.phase = .idle ∧ s.session = none ∧
        s.agenda = [.host (.call .identify)] ∧ s.dialect = d) ∧
    respDecode Config.hw oneFrame = .ok [1] ∧
    (∀ k ∈ [Await.identifyFirst, .identifySecond [7]],
      HostIsNext (exchanging (.decode oneFrame) k) [] ∧
        (exchanging (.decode oneFrame) k).session = some ⟨.decode oneFrame, k⟩) :=
  ⟨by decide, oneFrame_decodes, fun k _ => ⟨(decoding_hypotheses oneFrame k).1, rfl⟩⟩

theorem witness_GetValuesBatchesIds :
    (let s := facing (.host (.call (.getParameterValues [4035]))) (ready .binary)
     s.framer = none ∧ s.dialect = .binary ∧ s.agenda = [.host (.call (.getParameterValues [4035]))] ∧
      s.phase = .idle ∧ s.session = none) ∧
    (let s := exchanging (.decode oneFrame) (.values [4035])
     HostIsNext s [] ∧ s.session = some ⟨.decode oneFrame, .values [4035]⟩ ∧
      respDecode Config.hw oneFrame = .ok [1]) :=
  ⟨by decide, (decoding_hypotheses oneFrame _).1, rfl, oneFrame_decodes⟩

/-- The first id that is skipped and the last that is asked, in the call and after a line. -/
theorem witness_LegacyValuesSkipLargeIds :
    (∀ ids ∈ ([[100], [100] ++ 99 :: [5]] : List (List Word)),
      (let s := facing (.host (.call (.getParameterValues ids))) (ready .legacy)
       s.framer = none ∧ s.phase = .idle ∧ s.session = none ∧ s.dialect = .legacy ∧
        s.agenda = [.host (.call (.getParameterValues ids))]) ∧
      (let s := exchanging (.decode [0x41]) (.valuesText 5 ids []) (ready .legacy)
       HostIsNext s [] ∧ s.session = some ⟨.decode [0x41], .valuesText 5 ids []⟩)) ∧
    (∀ id ∈ ([100] : List Word), 100 ≤ id.toNat) ∧ (99 : Word).toNat < 100 := by
  refine ⟨?_, by simp, by simp⟩
  intro ids _
  exact ⟨⟨rfl, rfl, rfl, rfl, rfl⟩, ⟨rfl, rfl, .inr ⟨rfl, rfl⟩⟩, rfl⟩

/-- Start absent; both given; start out of range; end no date; both encoded. -/
theorem witness_GetLoggedDataRequest :
    (∀ start ∈ [none, some (⟨2024, 3, 15, 0, 0, 0⟩ : DateTime)],
      let op := SessionOp.getLoggedData start (some ⟨2024, 3, 15, 0, 0, 0⟩)
      let s := facing (.host (.call op)) (ready .binary)
      s.framer = none ∧ s.agenda = [.host (.call op)] ∧ s.phase = .idle ∧ s.session = none ∧
        s.dialect = .binary) ∧
    (∀ stage ∈ [Stage.encodeStart ⟨1999, 1, 1, 0, 0, 0⟩ ⟨2024, 4, 31, 0, 0, 0⟩,
        .encodeStop [0x60, 0xDE, 0x00, 0x00] ⟨2024, 4, 31, 0, 0, 0⟩],
      HostIsNext (exchanging stage .records) [] ∧
        (exchanging stage .records).session = some ⟨stage, .records⟩) ∧
    Machine.tsEncode ⟨1999, 1, 1, 0, 0, 0⟩ = .error .rangeError ∧
    Machine.tsEncode ⟨2024, 3, 15, 0, 0, 0⟩ = .ok [0x60, 0xDE, 0x00, 0x00] ∧
    Machine.tsEncode ⟨2024, 4, 31, 0, 0, 0⟩ = .error .invalidArgument ∧
    Machine.tsEncode ⟨2024, 3, 15, 12, 34, 56⟩ = .ok [0x60, 0xDE, 0xC8, 0xB8] :=
  ⟨by decide, fun _ _ => ⟨⟨rfl, rfl, .inr ⟨rfl, rfl⟩⟩, rfl⟩, rfl, rfl, rfl, rfl⟩

/-- The response `[1]` is ZeroCheck. -/
theorem witness_BinaryOperatingState :
    HostIsNext (exchanging (.decode oneFrame) .operatingState) [] ∧
    respDecode Config.hw oneFrame = .ok [1] ∧
    (([1] : List Int).head? = some 0 → OperatingState.zeroCheck = .normal) ∧
    (([1] : List Int).head? = some 1 → OperatingState.zeroCheck = .zeroCheck) ∧
    (([1] : List Int).head? = some 2 → OperatingState.zeroCheck = .spanCheck) ∧
    (([1] : List Int).head? ∉ [some (0 : Int), some 1, some 2] →
      OperatingState.zeroCheck = .error) :=
  ⟨(decoding_hypotheses oneFrame _).1, oneFrame_decodes, by decide, by decide, by decide, by decide⟩

/-- The call; "032"; and the empty line, which is no state. -/
theorem witness_LegacyOperatingState :
    (let s := facing (.host (.call .getOperatingState)) (ready .legacy)
     s.framer = none ∧ s.agenda = [.host (.call .getOperatingState)] ∧ s.phase = .idle ∧
      s.session = none ∧ s.dialect = .legacy) ∧
    (∀ line ∈ ([[0x30, 0x33, 0x32], []] : List (List Byte)),
      let s := exchanging (.decode line) .operatingStateText (ready .legacy)
      HostIsNext s [] ∧ s.session = some ⟨.decode line, .operatingStateText⟩) := by decide

/-- The reply to the command; then a poll that is not the last, and one that is. -/
theorem witness_PollConvergesOrTimesOut :
    respDecode Config.hw oneFrame = .ok [1] ∧
    (TargetState.normal, (0 : Int)) ∈
      ([(.normal, 0), (.zeroCheck, 1), (.spanCheck, 2)] : List (TargetState × Int)) ∧
    (∀ k ∈ [Await.setStateReply .normal, .setStatePoll .normal 2, .setStatePoll .normal 1],
      HostIsNext (exchanging (.decode oneFrame) k) [] ∧
        (exchanging (.decode oneFrame) k).session = some ⟨.decode oneFrame, k⟩) :=
  ⟨oneFrame_decodes, by simp, fun k _ => ⟨(decoding_hypotheses oneFrame k).1, rfl⟩⟩

/-- A poll with one left, the smallest number, ended by a timeout. -/
theorem witness_PollsAreBounded :
    let s := facing (.transport .timeout)
      (exchanging .waiting (.setStatePoll .normal 1) (waiting .binary [] []))
    (∃ t, step s = .next t) ∧
    (∀ stage target left, s.session = some ⟨stage, .setStatePoll target left⟩ →
      1 ≤ left ∧ left ≤ Config.hw.convergenceBound) := by
  refine ⟨⟨_, rfl⟩, ?_⟩
  rintro stage target left ⟨⟩
  exact ⟨le_rfl, Nat.le_add_left 1 Config.pollExtra⟩

/-- A receive in progress with bytes in RXBUF. -/
theorem witness_StepKeepsInvariant :
    let s := facing (.transport (.chunk 1)) (waiting .binary [0x02] [0x05])
    MachineInv s ∧ ∃ t, step s = .next t := by
  refine ⟨⟨⟨by decide, by decide +kernel, by decide, ?_⟩, ?_⟩, has_next (by decide +kernel)⟩
  · rintro f ⟨⟩
  · rintro k ⟨⟩

theorem witness_AtMostOneCompletionPerStep :
    ∃ t, step (facing (.issue 12 {}) (ready .binary)) = .next t := ⟨_, rfl⟩

end Sys2Proof.Tests
end

section
/-! The state right after reset, field by field (10_state.md R21), and the statement about it. -/

namespace Sys2Proof.Machine

section
variable (station : Byte) (dialect : Dialect)

@[simp] theorem resetWith_stationId : (State.resetWith station dialect).stationId = station := rfl
@[simp] theorem resetWith_dialect : (State.resetWith station dialect).dialect = dialect := rfl
@[simp] theorem resetWith_phase : (State.resetWith station dialect).phase = .idle := rfl
@[simp] theorem resetWith_rxbuf : (State.resetWith station dialect).rxbuf = [] := rfl
@[simp] theorem resetWith_framer : (State.resetWith station dialect).framer = none := rfl

end

/-- Settles O1: each part is the reset value of one field (10_state.md R21). -/
theorem resetValues : Obligations.ResetValues := fun station dialect =>
  ⟨resetWith_phase station dialect, resetWith_rxbuf station dialect,
    resetWith_framer station dialect, resetWith_stationId station dialect,
    resetWith_dialect station dialect⟩

end Sys2Proof.Machine
end

section
/-! CHECKSUM, and the exclusive or of a list by its recursion (40_checksum.md R80). -/

namespace Sys2Proof.Machine

/-- The accumulator starts at 0, so the first byte comes out in front of the rest. -/
@[simp] theorem xorAll_cons (b : Byte) (bs : List Byte) : xorAll (b :: bs) = b ^^^ xorAll bs :=
  calc xorAll (b :: bs)
    _ = bs.foldl (fun acc c => acc ^^^ c) (0 ^^^ b) := rfl
    _ = (0 ^^^ b) ^^^ xorAll bs := foldl_xor (0 ^^^ b) bs
    _ = b ^^^ xorAll bs := by simp

theorem exec_checksum (bytes : List Byte) (s : State) :
    exec (.checksum bytes) s = pureOp (.ok (.byte (xorAll bytes))) s := rfl

/-- Settles O4: in IDLE the operation only completes, and the fold of its value unrolls at the first
byte. -/
theorem checksumDeliversXor : Obligations.ChecksumDeliversXor := by
  refine ⟨fun bytes s idle => ?_, xorAll_nil, xorAll_cons⟩
  rw [exec_checksum, pureOp_idle _ idle]
  rfl

end Sys2Proof.Machine
end

section
/-! TS_DECODE: the six fields and the calendar as arithmetic (41_timestamp.md R85 to R87). -/

namespace Sys2Proof.Machine

theorem isLeapYear_iff (year : Nat) : isLeapYear year = true ↔ 4 ∣ year :=
  beq_iff_eq.trans (Nat.dvd_iff_mod_eq_zero).symm

/-- dim(year, month) with its leap year by divisibility and its short months by a list (R87). -/
theorem daysInMonth_eq (year month : Nat) :
    daysInMonth year month =
      if month = 2 then (if 4 ∣ year then 29 else 28)
      else if month ∈ [4, 6, 9, 11] then 30 else 31 := by
  simp [daysInMonth, isLeapYear_iff]

theorem validDateTime_iff (t : DateTime) :
    validDateTime t = true ↔
      1 ≤ t.month ∧ t.month ≤ 12 ∧ 1 ≤ t.day ∧ t.day ≤ daysInMonth t.year t.month ∧
        t.hour ≤ 23 ∧ t.minute ≤ 59 ∧ t.second ≤ 59 :=
  decide_eq_true_iff

theorem exec_tsDecode {s : State} (raw : Word) (idle : s.phase = .idle) :
    exec (.tsDecode raw) s =
      .next { s with
        completions := s.completions ++ [.ofResult .dateTime (tsDecode raw)] } :=
  pureOp_idle _ idle

/-- The completion of TS_DECODE: the fields of the word, if they are a date and time (R86). -/
theorem ofResult_tsDecode (raw : Word) :
    Completion.ofResult .dateTime (tsDecode raw) =
      if validDateTime (unpackTimestamp raw) then .ok (.dateTime (unpackTimestamp raw))
      else .err .decodeError := by
  unfold tsDecode
  split <;> rfl

/-- Settles O6: the fields by shift and mask are quotients and remainders, and their validity is the
calendar condition written out. -/
theorem tsDecodeDeliversFields : Obligations.TsDecodeDeliversFields := by
  intro raw s year month day hour minute second idle hs hmi hh hd hmo hy
  have fields : unpackTimestamp raw = ⟨year, month, day, hour, minute, second⟩ := by
    rw [unpackTimestamp_eq, hs, hmi, hh, hd, hmo, hy]
    rfl
  rw [exec_tsDecode raw idle, ofResult_tsDecode, fields]
  simp only [validDateTime_iff, daysInMonth_eq]

end Sys2Proof.Machine
end

section
/-! TS_ENCODE in its three cases (41_timestamp.md R88 to R91). -/

namespace Sys2Proof.Machine

/-- A field inside the word holds the low bits of the number's quotient. -/
theorem extractLsb'_ofNat {width start len : Nat} (v : Nat) (h : start + len ≤ width) :
    (BitVec.ofNat width v).extractLsb' start len = BitVec.ofNat len (v / 2 ^ start) := by
  ext j hj
  have inside : start + j < width := by omega
  rw [BitVec.getElem_extractLsb', ← BitVec.getLsbD_eq_getElem, BitVec.getLsbD_ofNat,
    BitVec.getLsbD_ofNat, Nat.testBit_div_two_pow, decide_eq_true inside, decide_eq_true hj,
    Nat.add_comm]

/-- The big-endian bytes of a number are the low eight bits of its quotients (R89). -/
theorem be32_ofNat (v : Nat) :
    be32 (BitVec.ofNat 32 v) =
      [BitVec.ofNat 8 (v / 2 ^ 24), BitVec.ofNat 8 (v / 2 ^ 16), BitVec.ofNat 8 (v / 2 ^ 8),
        BitVec.ofNat 8 v] := by
  simp [be32, extractLsb'_ofNat]

theorem encodableYear_iff (year : Nat) :
    encodableYear year = true ↔ 2000 ≤ year ∧ year ≤ 2063 := by
  rw [encodableYear_eq, decide_eq_true_iff]
  omega

theorem tsEncode_rangeError {t : DateTime} (hyear : encodableYear t.year = false) :
    tsEncode t = .error .rangeError := by
  simp [tsEncode, tsEncodeWord, hyear, Except.map]

theorem tsEncode_invalidArgument {t : DateTime} (hyear : encodableYear t.year = true)
    (hinvalid : validDateTime t = false) : tsEncode t = .error .invalidArgument := by
  simp [tsEncode, tsEncodeWord, hyear, hinvalid, Except.map]

theorem tsEncode_ok {t : DateTime} (hyear : encodableYear t.year = true)
    (hvalid : validDateTime t = true) :
    tsEncode t = .ok (be32 (BitVec.ofNat 32 (packTimestamp t))) := by
  simp [tsEncode, tsEncodeWord, hyear, hvalid, Except.map]

theorem exec_tsEncode {s : State} (t : DateTime) (idle : s.phase = .idle) :
    exec (.tsEncode t) s =
      .next { s with completions := s.completions ++ [.ofResult .bytes (tsEncode t)] } :=
  pureOp_idle _ idle

/-- Settles O7: the year is checked first, then the calendar; what passes both is packed with no
carry between the fields, so that the packed value is their weighted sum. -/
theorem tsEncodeDeliversBytes : Obligations.TsEncodeDeliversBytes := by
  intro t s idle
  rw [exec_tsEncode t idle]
  refine ⟨fun out => ?_, fun lo hi invalid => ?_, fun lo hi valid v hv => ?_⟩
  · have hyear : encodableYear t.year = false := by
      rw [← Bool.not_eq_true, encodableYear_iff]
      omega
    rw [tsEncode_rangeError hyear]
    rfl
  · rw [tsEncode_invalidArgument ((encodableYear_iff _).mpr ⟨lo, hi⟩) invalid]
    rfl
  · rw [tsEncode_ok ((encodableYear_iff _).mpr ⟨lo, hi⟩) valid, packTimestamp_eq_add valid, ← hv,
      be32_ofNat]
    rfl

end Sys2Proof.Machine
end

section
/-! FRAME_BUILD: the request's data and the frame, byte by byte (42_frame.md R100 to R103). -/

namespace Sys2Proof.Machine

/-- The id's bytes go before the payload unless the id is 0 (30_encoding.md R54). -/
theorem requestData_eq (parameterId : Word) (payload : List Byte) :
    requestData parameterId payload =
      (if parameterId = 0 then [] else
        [BitVec.ofNat 8 (parameterId.toNat / 2 ^ 24), BitVec.ofNat 8 (parameterId.toNat / 2 ^ 16),
          BitVec.ofNat 8 (parameterId.toNat / 2 ^ 8), BitVec.ofNat 8 parameterId.toNat]) ++
        payload := by
  by_cases zero : parameterId = 0
  · rw [zero, requestData_zero]
    rfl
  · have pos : 0 < parameterId.toNat := Nat.pos_of_ne_zero fun h => zero (BitVec.eq_of_toNat_eq h)
    have bytes := be32_ofNat parameterId.toNat
    rw [BitVec.ofNat_toNat, BitVec.setWidth_eq] at bytes
    rw [requestData, if_pos pos, if_neg zero, bytes]

theorem exec_frameBuild {s : State} (command : Byte) (parameterId : Word) (payload : List Byte)
    (idle : s.phase = .idle) :
    exec (.frameBuild command parameterId payload) s =
      .next { s with completions := s.completions ++
        [.ofResult .bytes (frameBuild s.stationId command parameterId payload)] } :=
  pureOp_idle _ idle

/-- The completion of FRAME_BUILD: the frame, if its data fits LENGTH (R101). -/
theorem ofResult_frameBuild (station command : Byte) (parameterId : Word) (payload : List Byte) :
    Completion.ofResult .bytes (frameBuild station command parameterId payload) =
      if Config.lenMax < (requestData parameterId payload).length then .err .rangeError
      else .ok (.bytes (frameBytes station command (requestData parameterId payload))) := by
  unfold frameBuild
  split <;> rfl

/-- Settles O9: msg_data written out is the model's request data, and the frame around it is the
head, its checksum and EOT. -/
theorem frameBuildDeliversFrame : Obligations.FrameBuildDeliversFrame := by
  intro command parameterId payload msgData head s idle hmsg hhead
  rw [exec_frameBuild command parameterId payload idle, ofResult_frameBuild, hhead, hmsg,
    ← requestData_eq]
  rfl

end Sys2Proof.Machine
end

section
/-! FRAME_VALIDATE: the four conditions on bytes, and the parts of a frame (42_frame.md
R111, R112). -/

namespace Sys2Proof.Machine

theorem slice_zero (buf : List Byte) (b : Nat) : slice buf 0 b = buf.take b := rfl

/-- LENGTH is the big-endian number of bytes 4 and 5 (30_encoding.md R52). -/
theorem beNat_slice_length {frame : List Byte} (h : 6 ≤ frame.length) :
    beNat (slice frame 4 6) = (frame.getD 4 0).toNat * 256 + (frame.getD 5 0).toNat :=
  match frame, h with
  | _ :: _ :: _ :: _ :: hi :: lo :: _, _ => beNat_pair hi lo

/-- The four conditions of R111, the second of them on three bytes. -/
theorem wellFormedFrame_iff (frame : List Byte) :
    wellFormedFrame frame = true ↔
      8 ≤ frame.length ∧ frame[0]? = some 0x02 ∧ frame[3]? = some 0x03 ∧
        frame[frame.length - 1]? = some 0x04 ∧
        (frame.getD 4 0).toNat * 256 + (frame.getD 5 0).toNat = frame.length - 8 ∧
        frame[frame.length - 2]? = some (xorAll (frame.take (frame.length - 2))) := by
  simp only [wellFormedFrame, Bool.and_eq_true, decide_eq_true_eq, beq_iff_eq, slice_zero,
    and_assoc, Config.stx, Config.etx, Config.eot]
  refine and_congr_right fun long => ?_
  rw [beNat_slice_length (by omega)]

theorem frameValidate_ok {frame : List Byte} (h : wellFormedFrame frame = true) :
    frameValidate frame =
      .ok ⟨frame.getD 1 0, frame.getD 2 0, slice frame 6 (frame.length - 2)⟩ := if_pos h

theorem frameValidate_decodeError {frame : List Byte} (h : ¬ wellFormedFrame frame = true) :
    frameValidate frame = .error .decodeError := if_neg h

/-- A frame whose data fits LENGTH meets the four conditions. -/
theorem wellFormedFrame_frameBytes (station command : Byte) {msgData : List Byte}
    (fits : msgData.length ≤ 65535) :
    wellFormedFrame (frameBytes station command msgData) = true := by
  have head := frameHead_length station command msgData
  rw [wellFormedFrame_iff, frameBytes_length]
  refine ⟨by omega, rfl, rfl, ?eot, ?len, ?checksum⟩
  case eot => simp [frameBytes, Config.eot]
  case len =>
    have len := beNat_be16 (n := msgData.length) (by omega)
    rw [be16, beNat_pair] at len
    simpa [frameBytes, frameHead, be16] using len
  case checksum => simp [frameBytes, head]

/-- FRAME_VALIDATE takes a frame apart into what it was made of (R112). -/
theorem frameValidate_frameBytes (station command : Byte) {msgData : List Byte}
    (fits : msgData.length ≤ 65535) :
    frameValidate (frameBytes station command msgData) = .ok ⟨station, command, msgData⟩ := by
  have data : slice (frameBytes station command msgData) 6 (msgData.length + 6) = msgData :=
    slice_middle ([Config.stx, station, command, Config.etx] ++ be16 msgData.length) msgData _
      rfl (Nat.add_comm ..)
  rw [frameValidate_ok (wellFormedFrame_frameBytes station command fits), frameBytes_length,
    Nat.add_sub_assoc (by decide), data]
  rfl

theorem exec_frameValidate {s : State} (frame : List Byte) (idle : s.phase = .idle) :
    exec (.frameValidate frame) s =
      .next { s with completions := s.completions ++ [.ofResult .frame (frameValidate frame)] } :=
  pureOp_idle _ idle

/-- Settles O10: the bytes written out are a frame of the model, and the negated conditions are
those of a well-formed frame. -/
theorem frameValidateChecksFourConditions : Obligations.FrameValidateChecksFourConditions := by
  constructor
  · intro station command msgData head s idle fits hhead
    have frame : head ++ [xorAll head, 0x04] = frameBytes station command msgData := by
      rw [hhead]
      rfl
    rw [exec_frameValidate _ idle, frame, frameValidate_frameBytes station command fits]
    rfl
  · intro frame s idle malformed
    rw [← wellFormedFrame_iff] at malformed
    rw [exec_frameValidate frame idle, frameValidate_decodeError malformed]
    rfl

end Sys2Proof.Machine
end

section
/-! A receive that waits: the three outcomes of a chunk, and the timeout (42_frame.md R105 to
R109). -/

namespace Sys2Proof.Machine

/-! ### The end of a receive with an error -/

/-- The exchange in progress once a receive has failed: one that waits for the receive is over
(60_exceptions.md R212). -/
def afterFailedReceive : Option Exchange → Option Exchange
  | some ⟨.waiting, _⟩ => none
  | x => x

theorem afterFailedReceive_waiting (k : Await) : afterFailedReceive (some ⟨.waiting, k⟩) = none :=
  rfl

theorem afterFailedReceive_other {x : Option Exchange} (h : ∀ k, x ≠ some ⟨.waiting, k⟩) :
    afterFailedReceive x = x := by
  unfold afterFailedReceive
  split
  · exact absurd rfl (h _)
  · rfl

/-- Whoever waits for the receive, the host is handed the error and nobody waits any more. -/
theorem finishReceive_error (e : Err) (s : State) :
    finishReceive (.error e) s =
      { s with
        phase := .idle, rxbuf := [], session := afterFailedReceive s.session,
        completions := s.completions ++ [.err e] } := by
  by_cases waits : ∃ k, s.session = some ⟨.waiting, k⟩
  · obtain ⟨k, hk⟩ := waits
    rw [finishReceive_exchange _ hk, hk, afterFailedReceive_waiting]
    rfl
  · have host : ∀ k, s.session ≠ some ⟨.waiting, k⟩ := not_exists.mp waits
    rw [finishReceive_host _ host, afterFailedReceive_other host]
    rfl

/-- A receive of the host completes with the bytes. -/
theorem finishReceive_ok_host {s : State} (bytes : List Byte)
    (host : ∀ k, s.session ≠ some ⟨.waiting, k⟩) :
    finishReceive (.ok bytes) s =
      { s with
        phase := .idle, rxbuf := [], completions := s.completions ++ [.ok (.bytes bytes)] } :=
  finishReceive_host _ host

/-! ### The outcomes of a chunk -/

theorem onChunk_overflow {c : List Byte} {s : State}
    (overflow : Config.hw.rxbufMax < s.rxbuf.length + c.length) :
    onChunk c s = finishReceive (.error .decodeError) s := if_pos overflow

theorem onChunk_terminated {c : List Byte} {s : State}
    (fits : s.rxbuf.length + c.length ≤ Config.hw.rxbufMax)
    (done : terminated s.dialect (s.rxbuf ++ c) = true) :
    onChunk c s = finishReceive (.ok (delivered Config.hw s.dialect (s.rxbuf ++ c))) s := by
  rw [onChunk, if_neg (Nat.not_lt.mpr fits), if_pos done]

theorem onChunk_goesOn {c : List Byte} {s : State}
    (fits : s.rxbuf.length + c.length ≤ Config.hw.rxbufMax)
    (more : ¬ terminated s.dialect (s.rxbuf ++ c) = true) :
    onChunk c s = { s with rxbuf := s.rxbuf ++ c } := by
  rw [onChunk, if_neg (Nat.not_lt.mpr fits), if_neg more]

/-- The state in which the bytes of a chunk have left the transport. -/
def chunkTaken (size : Nat) (s : State) : State := { s with residue := s.residue.drop size }

/-- A chunk of the stream, of at least one byte, reaches the receive that waits for it. -/
theorem deliverChunk_rxWait {size : Nat} {chunk : List Byte} {s : State}
    (waits : s.phase = .rxWait) (hchunk : chunk = s.residue.take size) (nonempty : chunk ≠ []) :
    deliverChunk size s = onChunk chunk (chunkTaken size s) := by
  obtain ⟨b, c, rfl⟩ := List.exists_cons_of_ne_nil nonempty
  rw [deliverChunk, if_pos waits, ← hchunk]
  rfl

/-! ### The step on an event of the transport -/

theorem step_transport {s : State} {act : TransportAct} {rest : List Event}
    (hf : s.framer = none) (ha : s.agenda = .transport act :: rest) :
    step s = .next (transportAct act (withAgenda s rest)) := step_event hf ha

theorem step_timeout {s : State} {rest : List Event} (hf : s.framer = none)
    (ha : s.agenda = .transport .timeout :: rest) (waits : s.phase = .rxWait) :
    step s = .next (finishReceive (.error .timeoutError) (withAgenda s rest)) := by
  rw [step_transport hf ha, transportAct, withAgenda_phase, if_pos waits, onTimeout]

section
variable {s : State} {size : Nat} {rest : List Event} {chunk : List Byte}
  (hf : s.framer = none) (ha : s.agenda = .transport (.chunk size) :: rest)
  (waits : s.phase = .rxWait) (hchunk : chunk = s.residue.take size) (nonempty : chunk ≠ [])
include hf ha waits hchunk nonempty

theorem step_chunk :
    step s = .next (onChunk chunk (chunkTaken size (withAgenda s rest))) := by
  rw [step_transport hf ha, transportAct,
    deliverChunk_rxWait (s := withAgenda s rest) waits hchunk nonempty]

/-- A chunk that brings the terminator completes a receive of the host. -/
theorem step_chunk_terminated (fits : s.rxbuf.length + chunk.length ≤ Config.hw.rxbufMax)
    (done : terminated s.dialect (s.rxbuf ++ chunk) = true)
    (host : ∀ k, s.session ≠ some ⟨.waiting, k⟩) :
    step s = .next { s with
      agenda := rest, residue := s.residue.drop size, phase := .idle, rxbuf := [],
      completions := s.completions ++
        [.ok (.bytes (delivered Config.hw s.dialect (s.rxbuf ++ chunk)))] } := by
  rw [step_chunk hf ha waits hchunk nonempty,
    onChunk_terminated (s := chunkTaken size (withAgenda s rest)) fits done,
    finishReceive_ok_host (s := chunkTaken size (withAgenda s rest)) _ host]
  rfl

/-- After any other chunk that fits the receive goes on. -/
theorem step_chunk_goesOn (fits : s.rxbuf.length + chunk.length ≤ Config.hw.rxbufMax)
    (more : ¬ terminated s.dialect (s.rxbuf ++ chunk) = true) :
    step s = .next { s with
      agenda := rest, residue := s.residue.drop size, rxbuf := s.rxbuf ++ chunk } := by
  rw [step_chunk hf ha waits hchunk nonempty,
    onChunk_goesOn (s := chunkTaken size (withAgenda s rest)) fits more]
  rfl

end

/-- Settles O27: the overflow is looked at first, so the chunk's end does not matter. -/
theorem overflowIsDecodeError : Obligations.OverflowIsDecodeError := by
  intro s size rest chunk hf ha waits hchunk nonempty overflow
  rw [step_chunk hf ha waits hchunk nonempty,
    onChunk_overflow (s := chunkTaken size (withAgenda s rest)) overflow, finishReceive_error]
  rfl

/-- Settles O28: a timeout is the end of the receive with its error, whoever waits. -/
theorem timeoutIsTimeoutError : Obligations.TimeoutIsTimeoutError := by
  intro s rest hf ha waits
  rw [step_timeout hf ha waits, finishReceive_error]
  rfl

end Sys2Proof.Machine
end

section
/-! The end of a response in the two dialects: the terminator test and what is delivered
(42_frame.md R105, R106). -/

namespace Sys2Proof.Machine

/-! ### BINARY -/

/-- The last byte of the buffer is the last byte of the chunk that arrived. -/
theorem terminated_binary_iff (buf : List Byte) {chunk : List Byte} (nonempty : chunk ≠ []) :
    terminated .binary (buf ++ chunk) = true ↔ chunk.getLast? = some 0x04 := by
  rw [terminated, List.getLast?_append_of_ne_nil buf nonempty, beq_iff_eq, Config.eot]

/-- Settles O25: the test on the buffer's end is one on the chunk's, and BINARY delivers the whole
buffer. -/
theorem binaryChunk : Obligations.BinaryChunk := by
  intro s size rest chunk hf ha waits binary hchunk nonempty fits
  have ends : terminated s.dialect (s.rxbuf ++ chunk) = true ↔ chunk.getLast? = some 0x04 := by
    rw [binary]
    exact terminated_binary_iff s.rxbuf nonempty
  have whole : delivered Config.hw s.dialect (s.rxbuf ++ chunk) = s.rxbuf ++ chunk := by
    rw [binary]
    rfl
  constructor
  · intro eot host
    rw [step_chunk_terminated hf ha waits hchunk nonempty fits (ends.mpr eot) host, whole]
  · intro noEot
    exact step_chunk_goesOn hf ha waits hchunk nonempty fits (mt ends.mp noEot)

/-! ### LEGACY -/

theorem terminated_legacy_iff (buf : List Byte) :
    terminated .legacy buf = true ↔ [0x0D, 0x0A] <:+ buf ∨ [0x0D, 0x0A, 0x0A] <:+ buf := by
  simp only [terminated, Bool.or_eq_true, List.isSuffixOf_iff_suffix, Config.cr, Config.lf]

/-- Where a line ends with no white space and only white space follows, rtrim leaves the line. -/
theorem rtrim_append (cfg : Config) {line blanks : List Byte}
    (white : ∀ b ∈ blanks, b ∈ cfg.whitespace)
    (dark : ∀ b, line.getLast? = some b → b ∉ cfg.whitespace) :
    rtrim cfg (line ++ blanks) = line := by
  have skipped : ∀ b ∈ blanks.reverse, cfg.whitespace.contains b = true := fun b hb =>
    List.contains_iff_mem.mpr (white b (List.mem_reverse.mp hb))
  rw [rtrim, List.reverse_append, List.dropWhile_append_of_pos skipped]
  refine List.rdropWhile_eq_self_iff.mpr fun hl => ?_
  rw [List.contains_iff_mem]
  exact dark _ (List.getLast?_eq_some_getLast hl)

/-- Settles O26: the two line ends are the terminator test, and the line that LEGACY delivers is the
one the hypotheses describe. -/
theorem legacyChunk : Obligations.LegacyChunk := by
  intro s size rest chunk line blanks hf ha waits legacy hchunk nonempty fits
  have ends : terminated s.dialect (s.rxbuf ++ chunk) = true ↔
      [0x0D, 0x0A] <:+ s.rxbuf ++ chunk ∨ [0x0D, 0x0A, 0x0A] <:+ s.rxbuf ++ chunk := by
    rw [legacy]
    exact terminated_legacy_iff _
  constructor
  · intro lineEnd parts white dark host
    have trimmed : delivered Config.hw s.dialect (s.rxbuf ++ chunk) = line := by
      rw [legacy, parts]
      exact rtrim_append Config.hw white dark
    rw [step_chunk_terminated hf ha waits hchunk nonempty fits (ends.mpr lineEnd) host, trimmed]
  · intro noLineEnd
    exact step_chunk_goesOn hf ha waits hchunk nonempty fits (mt ends.mp noLineEnd)

end Sys2Proof.Machine
end

section
/-! RESP_DECODE: LENGTH / 4 words from offset 6, each a signed integer (43_response_decoder.md R130,
R132, R133). -/

namespace Sys2Proof.Machine

/-! ### A word in the buffer -/

/-- The four bytes of a buffer from an offset on, where they are all there. -/
theorem slice_four : ∀ {buf : List Byte} {off : Nat}, off + 4 ≤ buf.length →
    slice buf off (off + 4) =
      [buf.getD off 0, buf.getD (off + 1) 0, buf.getD (off + 2) 0, buf.getD (off + 3) 0]
  | _ :: _ :: _ :: _ :: _, 0, _ => rfl
  | _ :: bs, off + 1, h => slice_four (buf := bs) (off := off) (Nat.le_of_succ_le_succ h)

/-- One more byte of a big-endian number (20_memory.md R32). -/
theorem toNat_append_byte {w : Nat} (x : BitVec w) (b : Byte) :
    (x ++ b).toNat = x.toNat * 256 + b.toNat := by
  rw [BitVec.toNat_append, ← Nat.shiftLeft_add_eq_or_of_lt b.isLt, Nat.shiftLeft_eq]

/-- Element k of the result is the two's complement value of its four bytes (R133). -/
theorem sext32_beNat_quad (a b c d : Byte) :
    sext32 (beNat [a, b, c, d]) = (a ++ b ++ c ++ d).toInt := by
  have word : beNat [a, b, c, d] = (a ++ b ++ c ++ d).toNat := by
    simp only [beNat_quad, toNat_append_byte]
  rw [sext32, word, BitVec.ofNat_toNat, BitVec.setWidth_eq]

/-- Where all the words are there, they are read as the bytes that R130 names. -/
theorem readWords_ok {buf : List Byte} {n off : Nat} (h : off + 4 * n ≤ buf.length) :
    ∃ ws, readWords Config.hw buf n off = .ok ws ∧ ws.length = n ∧
      ∀ k < n, ws[k]? = some (beNat [buf.getD (off + 4 * k) 0, buf.getD (off + 4 * k + 1) 0,
        buf.getD (off + 4 * k + 2) 0, buf.getD (off + 4 * k + 3) 0]) := by
  obtain ⟨-, ws, hws, count, words⟩ | ⟨short, -⟩ := readWords_hw buf n off
  · refine ⟨ws, hws, count, fun k hk => ?_⟩
    rw [words k hk, slice_four (by omega)]
  · omega

theorem readWords_short {buf : List Byte} {n off : Nat} (start : off ≤ buf.length)
    (h : buf.length < off + 4 * n) : readWords Config.hw buf n off = .error .decodeError := by
  obtain ⟨whole, -⟩ | ⟨-, -, err⟩ := readWords_hw buf n off
  · omega
  · exact err

/-! ### The message length -/

/-- LENGTH in words, rounded down (30_encoding.md R52). -/
theorem messageLength_ok {response : List Byte} (h : 6 ≤ response.length) :
    messageLength Config.hw response =
      .ok (((response.getD 4 0).toNat * 256 + (response.getD 5 0).toNat) / 4) := by
  have field := memReadFull_ok (buf := response) (off := 4) (n := 2) h
  rw [beNat_slice_length h] at field
  rw [messageLength, memRead_hw, field]
  exact congrArg Except.ok (Nat.shiftRight_eq_div_pow _ 2)

theorem messageLength_short {response : List Byte} (h : response.length < 6) :
    messageLength Config.hw response = .error .decodeError := by
  rw [messageLength, memRead_hw, memReadFull_short h]
  rfl

/-! ### The operation -/

theorem respDecode_eq (cfg : Config) (response : List Byte) :
    respDecode cfg response =
      (messageLength cfg response).bind fun n =>
        (readWords cfg response n 6).bind fun ws => .ok (ws.map sext32) := rfl

/-- A response that holds its words decodes to them as signed integers (R130, R133). -/
theorem respDecode_ok {response : List Byte} {n : Nat} (long : 6 ≤ response.length)
    (hn : n = ((response.getD 4 0).toNat * 256 + (response.getD 5 0).toNat) / 4)
    (fits : 6 + 4 * n ≤ response.length) :
    ∃ ints, respDecode Config.hw response = .ok ints ∧ ints.length = n ∧
      ∀ k < n, ints[k]? = some (BitVec.toInt
        (response.getD (6 + 4 * k) 0 ++ response.getD (7 + 4 * k) 0 ++
          response.getD (8 + 4 * k) 0 ++ response.getD (9 + 4 * k) 0)) := by
  obtain ⟨ws, hws, count, words⟩ := readWords_ok fits
  refine ⟨ws.map sext32, ?_, by rw [List.length_map, count], fun k hk => ?_⟩
  · rw [respDecode_eq, messageLength_ok long, ← hn, Except.bind, hws]
    rfl
  · rw [List.getElem?_map, words k hk, Option.map_some, sext32_beNat_quad,
      Nat.add_right_comm 6 _ 1, Nat.add_right_comm 6 _ 2, Nat.add_right_comm 6 _ 3]

/-- The length field or a word is a short read (R132). -/
theorem respDecode_short {response : List Byte} {n : Nat}
    (hn : n = ((response.getD 4 0).toNat * 256 + (response.getD 5 0).toNat) / 4)
    (short : ¬ (6 ≤ response.length ∧ 6 + 4 * n ≤ response.length)) :
    respDecode Config.hw response = .error .decodeError := by
  rw [respDecode_eq]
  by_cases long : 6 ≤ response.length
  · rw [messageLength_ok long, ← hn, Except.bind, readWords_short long (by omega)]
    rfl
  · rw [messageLength_short (by omega)]
    rfl

theorem exec_respDecode {s : State} (response : List Byte) (idle : s.phase = .idle) :
    exec (.respDecode response) s =
      .next { s with completions := s.completions ++
        [.ofResult .ints (respDecode Config.hw response)] } :=
  pureOp_idle _ idle

/-- Settles O14: the length field and then the words are read up to the end of the buffer, and
nothing else can fail. -/
theorem respDecodeDeliversSignedWords : Obligations.RespDecodeDeliversSignedWords := by
  intro response s n idle hn
  rw [exec_respDecode response idle]
  constructor
  · rintro ⟨long, fits⟩
    obtain ⟨ints, decoded, count, words⟩ := respDecode_ok long hn fits
    refine ⟨ints, count, words, ?_⟩
    rw [decoded]
    rfl
  · intro short
    rw [respDecode_short hn short]
    rfl

end Sys2Proof.Machine
end

section
/-! A record of a LOG_DECODE in progress: what its outcome makes of the state, and a slice that is
no record (44_logged_data.md R146, R151, R154 to R156). -/

namespace Sys2Proof.Machine

theorem afterRecord_ok (f : Framer) (s : State) :
    afterRecord (.ok f) s =
      if f.index < f.records then { s with framer := some f }
      else
        { s with framer := none, completions := s.completions ++ [.ok (.records f.out)] } := rfl

theorem afterRecord_error (e : Err) (s : State) :
    afterRecord (.error e) s =
      { s with framer := none, completions := s.completions ++ [.err e] } := rfl

theorem exec_recHeader {s : State} {f : Framer} (rest : List Byte) (hs : s.framer = some f) :
    exec (.recHeader rest) s =
      .next (afterRecord (headerRecord Config.hw f (Config.recTypeHeader :: rest)) s) := by
  show execRecHeader rest s = _
  rw [execRecHeader, runRecord, hs]

theorem exec_recData {s : State} {f : Framer} (rest : List Byte) (hs : s.framer = some f) :
    exec (.recData rest) s =
      .next (afterRecord (dataRecord Config.hw f (Config.recTypeData :: rest)) s) := by
  show execRecData rest s = _
  rw [execRecData, runRecord, hs]

theorem step_record {s : State} {f : Framer} (hs : s.framer = some f) :
    step s = recordTurn f s := by
  rw [step, hs]

theorem decode_record_otherType {bytes : List Byte} (notData : bytes[0]? ≠ some 0)
    (notHeader : bytes[0]? ≠ some 1) : decode (.record bytes) = .error .recordType := by
  obtain ⟨rest, rfl, -⟩ | ⟨rest, rfl, -⟩ | rejected := decode_record_cases bytes
  · exact absurd rfl notHeader
  · exact absurd rfl notData
  · exact rejected

/-- Settles O37: the decoder reads no record from such a slice, which ends the operation. -/
theorem otherRecordTypeFails : Obligations.OtherRecordTypeFails := by
  intro s f hs notData notHeader
  rw [step_record hs, recordTurn_eq, fetchRecord, decode_record_otherType notData notHeader]
  rfl

end Sys2Proof.Machine
end

section
/-! A header record: its count, then so many ids, up to the end of the slice (44_logged_data.md
R147, R155). -/

namespace Sys2Proof.Machine

/-- The ids are read back from where they were written. -/
theorem readIds_field (before tail : List Byte) (ids : List Word) {off : Nat}
    (h : off = before.length) :
    readIds Config.hw (before ++ be32s ids ++ tail) ids.length off = .ok ids := by
  induction ids generalizing before off with
  | nil => rfl
  | cons w ws ih =>
    have first := memReadFull_field before (be32s ws ++ tail) w h
    have others := ih (before ++ be32 w) (off := off + 4) (by simp [h])
    simp only [be32s_cons, List.append_assoc] at first others ⊢
    rw [List.length_cons, readIds_cons_hw, first, Except.bind, others, Except.bind,
      BitVec.ofNat_toNat, BitVec.setWidth_eq]

/-- An id that is not all there is a short read (20_memory.md R34). -/
theorem readIds_short {window : List Byte} {n off : Nat} (start : off ≤ window.length)
    (h : window.length < off + 4 * n) : readIds Config.hw window n off = .error .decodeError := by
  induction n generalizing off with
  | zero => omega
  | succ n ih =>
    rw [readIds_cons_hw]
    by_cases first : off + 4 ≤ window.length
    · rw [memReadFull_ok first, Except.bind, ih first (by omega)]
      rfl
    · rw [memReadFull_short (by omega)]
      rfl

theorem headerRecord_ok (f : Framer) (type : Byte) {fixed : List Byte} {n : Word} {ids : List Word}
    (tail : List Byte) (hfixed : fixed.length = 11) (count : ids.length = n.toNat) :
    headerRecord Config.hw f (type :: (fixed ++ be32 n ++ be32s ids ++ tail)) =
      .ok { f with keys := ids, index := f.index + 1 } := by
  have countField := memReadFull_field (type :: fixed) (be32s ids ++ tail) n (off := 12)
    (by simp [hfixed])
  have idFields := readIds_field (type :: fixed ++ be32 n) tail ids (off := 16) (by simp [hfixed])
  simp only [List.cons_append, List.append_assoc] at countField idFields ⊢
  rw [headerRecord_eq, countField, Except.bind, ← count, idFields]
  rfl

/-- The count or one of the ids lies outside the slice. -/
theorem headerRecord_short (f : Framer) (type : Byte) {rest : List Byte}
    (h : rest.length < 15 ∨ rest.length < 15 + 4 * beNat ((rest.drop 11).take 4)) :
    headerRecord Config.hw f (type :: rest) = .error .decodeError := by
  rw [headerRecord_eq]
  by_cases counted : 15 ≤ rest.length
  · have countField : slice (type :: rest) 12 (12 + 4) = (rest.drop 11).take 4 :=
      List.drop_take (i := 11) (j := 15) (l := rest)
    have ids := readIds_short (window := type :: rest) (off := 16)
      (n := beNat ((rest.drop 11).take 4)) (by simp; omega) (by simp; omega)
    rw [memReadFull_ok (by simp; omega), countField, Except.bind, ids]
    rfl
  · rw [memReadFull_short (by simp; omega)]
    rfl

/-- Settles O33: the header record reads its count and its ids and nothing else, so it fails where
one of them is not in the slice, and otherwise only the keys and the index change. -/
theorem headerRecordReplacesKeys : Obligations.HeaderRecordReplacesKeys := by
  constructor
  · intro s f fixed tail n ids hs hfixed count
    rw [exec_recHeader _ hs, headerRecord_ok f _ tail hfixed count, afterRecord_ok]
  · intro s f rest hs short
    rw [exec_recHeader _ hs, headerRecord_short f _ short, afterRecord_error]

end Sys2Proof.Machine
end

section
/-! A data record: its three fixed words, then a slot for each active key (44_logged_data.md R148 to
R150, R153). -/

namespace Sys2Proof.Machine

/-! ### One slot -/

/-- A word read from a buffer is its four bytes side by side. -/
theorem ofNat_beNat_quad (a b c d : Byte) :
    BitVec.ofNat 32 (beNat [a, b, c, d]) = a ++ b ++ c ++ d := by
  have value : beNat [a, b, c, d] = (a ++ b ++ c ++ d).toNat := by
    simp only [beNat_quad, toNat_append_byte]
  rw [value, BitVec.ofNat_toNat, BitVec.setWidth_eq]

/-- A read behind a prefix is a read of what follows it. -/
theorem memReadFull_append_right (before buf : List Byte) (off n : Nat) :
    memReadFull (before ++ buf) (before.length + off) n = memReadFull buf off n := by
  simp [memReadFull, slice, Nat.add_assoc, List.take_length_add_append, List.drop_length_add_append]

theorem fieldValue_append_right (before slots : List Byte) (key : Word) (off : Nat) :
    fieldValue (before ++ slots) key (before.length + off) = fieldValue slots key off := by
  rw [fieldValue, fieldValue, memReadFull_append_right]

/-- The slot of a key above 1000 is read as a pattern, another key's slot not at all (R149). -/
theorem fieldValue_ok {slots : List Byte} {key : Word} {off : Nat}
    (fits : 1000 < key.toNat → off + 4 ≤ slots.length) :
    fieldValue slots key off = .ok (if 1000 < key.toNat then
      .float (slots.getD off 0 ++ slots.getD (off + 1) 0 ++ slots.getD (off + 2) 0 ++
        slots.getD (off + 3) 0) else .empty) := by
  by_cases above : 1000 < key.toNat
  · rw [fieldValue_float slots off above, memReadFull_ok (fits above), slice_four (fits above),
      Except.bind, ofNat_beNat_quad, if_pos above]
  · rw [fieldValue_empty slots off (Nat.not_lt.mp above), if_neg above]

/-! ### The pairs and the record -/

/-- The pairs of a data record, one by one: slot k stands 4 * k bytes after the first (R148). -/
theorem readPairs_ok {window : List Byte} {keys : List Word} {pairs : List (Word × FieldValue)}
    {off : Nat} (count : pairs.length = keys.length)
    (each : ∀ (k : Nat) (key : Word), keys[k]? = some key →
      ∃ v, pairs[k]? = some (key, v) ∧ fieldValue window key (off + 4 * k) = .ok v) :
    readPairs window keys off = .ok pairs := by
  induction keys generalizing pairs off with
  | nil => rw [List.eq_nil_of_length_eq_zero count, readPairs]
  | cons key keys ih =>
    obtain ⟨p, pairs, rfl⟩ := List.exists_cons_of_length_eq_add_one count
    obtain ⟨v, hp, (hv : fieldValue window key off = .ok v)⟩ := each 0 key rfl
    obtain rfl : p = (key, v) := Option.some.inj hp
    have others : readPairs window keys (off + 4) = .ok pairs := by
      refine ih (Nat.succ.inj count) fun k key' hk => ?_
      rw [Nat.add_assoc, Nat.add_comm 4]
      exact each (k + 1) key' hk
    rw [readPairs_cons, hv, Except.bind, others, Except.bind]

theorem dataRecord_ok {f : Framer} (type : Byte) {fixed slots : List Byte}
    {raw interval n : Word} {t : DateTime} {pairs : List (Word × FieldValue)}
    (hfixed : fixed.length = 3) (time : tsDecode raw = .ok t)
    (count : pairs.length = (f.keys.take n.toNat).length)
    (each : ∀ (k : Nat) (key : Word), (f.keys.take n.toNat)[k]? = some key →
      ∃ v, pairs[k]? = some (key, v) ∧ fieldValue slots key (4 * k) = .ok v) :
    dataRecord Config.hw f
        (type :: (fixed ++ be32 raw ++ be32 interval ++ be32 n ++ slots)) =
      .ok { f with out := f.out ++ [⟨pairs, t, interval⟩], index := f.index + 1 } := by
  have rawField := memReadFull_field (type :: fixed) (be32 interval ++ (be32 n ++ slots)) raw
    (off := 4) (by simp [hfixed])
  have intervalField := memReadFull_field (type :: fixed ++ be32 raw) (be32 n ++ slots) interval
    (off := 8) (by simp [hfixed])
  have countField := memReadFull_field (type :: fixed ++ be32 raw ++ be32 interval) slots n
    (off := 12) (by simp [hfixed])
  have slotFields : readPairs (type :: fixed ++ be32 raw ++ be32 interval ++ be32 n ++ slots)
      (f.keys.take n.toNat) 16 = .ok pairs := by
    refine readPairs_ok count fun k key hk => ?_
    have start : 16 = (type :: fixed ++ be32 raw ++ be32 interval ++ be32 n).length := by
      simp [hfixed]
    rw [start, fieldValue_append_right]
    exact each k key hk
  simp only [List.cons_append, List.append_assoc] at rawField intervalField countField slotFields
  simp only [List.append_assoc, dataRecord_eq, rawField, intervalField, countField, slotFields,
    Except.bind, BitVec.ofNat_toNat, BitVec.setWidth_eq, time]

/-- Settles O34: the hypotheses give the value of each pair, so the record is the one appended. -/
theorem dataRecordAppendsRecord : Obligations.DataRecordAppendsRecord := by
  intro s f fixed slots raw interval n t pairs hs hfixed time fits count each
  have decoded := dataRecord_ok (f := f) (slots := slots) (interval := interval)
    Config.recTypeData hfixed time (count.trans List.length_take.symm)
    fun k key hk => ⟨_, each k key hk, fieldValue_ok (fits k key hk)⟩
  rw [exec_recData _ hs, decoded, afterRecord_ok]

end Sys2Proof.Machine
end

section
/-! The refusal of an Issue, in RX_WAIT or of an OPSEL that selects no operation (60_exceptions.md
R213). -/

namespace Sys2Proof.Machine

section
variable {s : State} {opsel : BitVec 4} {operands : Operands} {i : Instr}

theorem execLogDecode_rxWait (response : List Byte) (waits : s.phase = .rxWait) :
    execLogDecode response s = .next (complete .refused s) := if_pos waits

/-- Each of the eight operations asks for IDLE before it does anything (10_state.md R15). -/
theorem exec_operation_rxWait (selected : decodeOp opsel operands = .ok i)
    (waits : s.phase = .rxWait) : exec i s = .next (complete .refused s) := by
  unfold decodeOp at selected
  split at selected <;> cases selected
  case h_5 => exact acceptIdle_rxWait _ waits
  case h_8 => exact execLogDecode_rxWait _ waits
  all_goals exact pureOp_rxWait _ waits

theorem issueStep_reserved (operands : Operands) (s : State) (reserved : 8 ≤ opsel.toNat) :
    issueStep opsel operands s = .next (complete .refused s) := by
  obtain ⟨-, rejected⟩ | ⟨small, -⟩ := decode_op_cases opsel operands
  · rw [issueStep, rejected]
  · omega

theorem issueStep_rxWait (opsel : BitVec 4) (operands : Operands) (waits : s.phase = .rxWait) :
    issueStep opsel operands s = .next (complete .refused s) := by
  obtain ⟨reserved, -⟩ | ⟨-, i, selected, -⟩ := decode_op_cases opsel operands
  · exact issueStep_reserved operands s reserved
  · rw [issueStep, selected]
    exact exec_operation_rxWait selected waits

end

/-- Settles O22: the event is taken, and both grounds lead to the same refusal of the Issue. -/
theorem issueRefused : Obligations.IssueRefused := by
  intro s opsel operands rest hf ha grounds
  have refused : issueStep opsel operands (withAgenda s rest) =
      .next (complete .refused (withAgenda s rest)) := by
    obtain waits | reserved := grounds
    · exact issueStep_rxWait opsel operands waits
    · exact issueStep_reserved operands _ reserved
  calc step s
    _ = issueStep opsel operands (withAgenda s rest) := step_event hf ha
    _ = .next (complete .refused (withAgenda s rest)) := refused

end Sys2Proof.Machine
end

section
/-! What the completion of an operation says about its result, and the frame as the one form
FRAME_VALIDATE accepts (42_frame.md R111, R115). -/

namespace Sys2Proof.Machine

/-! ### A result read from its completion -/

theorem next_completion_inj {s : State} {c d : Completion} :
    (.next { s with completions := s.completions ++ [c] } : Outcome) =
      .next { s with completions := s.completions ++ [d] } ↔ c = d := by
  simp

theorem ofResult_eq_ok_iff {α : Type} {wrap : α → Value} (inj : Function.Injective wrap)
    {r : Result α} {v : α} : Completion.ofResult wrap r = .ok (wrap v) ↔ r = .ok v := by
  cases r with
  | ok w => simp [Completion.ofResult, inj.eq_iff]
  | error e => simp [Completion.ofResult]

section
variable {s : State} (idle : s.phase = .idle)
include idle

theorem exec_frameBuild_ok_iff {command : Byte} {parameterId : Word} {payload frame : List Byte} :
    exec (.frameBuild command parameterId payload) s =
        .next { s with completions := s.completions ++ [.ok (.bytes frame)] } ↔
      frameBuild s.stationId command parameterId payload = .ok frame := by
  rw [exec_frameBuild _ _ _ idle, next_completion_inj,
    ofResult_eq_ok_iff fun _ _ => Value.bytes.inj]

theorem exec_frameValidate_ok_iff {frame : List Byte} {parts : FrameParts} :
    exec (.frameValidate frame) s =
        .next { s with completions := s.completions ++ [.ok (.frame parts)] } ↔
      frameValidate frame = .ok parts := by
  rw [exec_frameValidate _ idle, next_completion_inj,
    ofResult_eq_ok_iff fun _ _ => Value.frame.inj]

theorem exec_frameValidate_malformed {frame : List Byte} (h : ¬ wellFormedFrame frame = true) :
    exec (.frameValidate frame) s =
      .next { s with completions := s.completions ++ [.err .decodeError] } := by
  rw [exec_frameValidate frame idle, frameValidate_decodeError h]
  rfl

end

/-! ### The frame FRAME_BUILD builds is the only one FRAME_VALIDATE accepts -/

theorem frameBuild_ok_iff {station command : Byte} {parameterId : Word}
    {payload frame : List Byte} :
    frameBuild station command parameterId payload = .ok frame ↔
      (requestData parameterId payload).length ≤ 65535 ∧
        frame = frameBytes station command (requestData parameterId payload) := by
  obtain ⟨long, built⟩ | ⟨fits, built⟩ := frameBuild_eq station command parameterId payload
  · rw [built]
    simp [Nat.not_le.mpr (show 65535 < _ from long)]
  · rw [built]
    simp [show _ ≤ 65535 from fits, eq_comm]

theorem wellFormedFrame_of_validated {frame : List Byte} {parts : FrameParts}
    (h : frameValidate frame = .ok parts) : wellFormedFrame frame = true := by
  by_contra malformed
  rw [frameValidate_decodeError malformed] at h
  cases h

/-- A byte sequence of at least eight bytes: six, then the data, then two. -/
theorem frame_split {frame : List Byte} (long : 8 ≤ frame.length) :
    ∃ stx station command etx hi lo data checksum eot,
      frame = [stx, station, command, etx, hi, lo] ++ data ++ [checksum, eot] := by
  match frame, long with
  | a :: b :: c :: d :: e :: f :: rest, long =>
    have two : (rest.drop (rest.length - 2)).length = 2 := by
      simp only [List.length_cons] at long
      rw [List.length_drop]
      omega
    obtain ⟨checksum, eot, back⟩ := List.length_eq_two.mp two
    refine ⟨a, b, c, d, e, f, rest.take (rest.length - 2), checksum, eot, ?_⟩
    rw [← back, List.append_assoc, List.take_append_drop]
    rfl

/-- The 16-bit LENGTH of a number is its two bytes (30_encoding.md R52). -/
theorem be16_pair (hi lo : Byte) : be16 (hi.toNat * 256 + lo.toNat) = [hi, lo] := by
  have := lo.isLt
  rw [be16, show (hi.toNat * 256 + lo.toNat) / 256 = hi.toNat by omega]
  congr 2
  · simp
  · exact BitVec.eq_of_toNat_eq (by simp; omega)

/-- A well-formed frame is the frame of its own parts. -/
theorem frame_of_wellFormed {frame : List Byte} (h : wellFormedFrame frame = true) :
    ∃ station command msgData, msgData.length ≤ 65535 ∧
      frame = frameBytes station command msgData := by
  obtain ⟨long, hstx, hetx, heot, hlen, hsum⟩ := (wellFormedFrame_iff frame).mp h
  obtain ⟨stx, station, command, etx, hi, lo, data, checksum, eot, rfl⟩ := frame_split long
  obtain rfl : stx = 0x02 := by simpa using hstx
  obtain rfl : etx = 0x03 := by simpa using hetx
  obtain rfl : eot = 0x04 := by simpa using heot
  have length : hi.toNat * 256 + lo.toNat = data.length := by simpa using hlen
  have head : [0x02, station, command, 0x03, hi, lo] ++ data =
      frameHead station command data := by
    rw [frameHead, ← length, be16_pair]
    rfl
  obtain rfl : checksum = xorAll (frameHead station command data) := by
    rw [head] at hsum
    simpa using hsum
  refine ⟨station, command, data, ?_, by rw [head]; rfl⟩
  have := hi.isLt
  have := lo.isLt
  omega

theorem frameValidate_ok_iff {frame : List Byte} {parts : FrameParts} :
    frameValidate frame = .ok parts ↔
      parts.msgData.length ≤ 65535 ∧
        frame = frameBytes parts.station parts.command parts.msgData := by
  constructor
  · intro h
    obtain ⟨station, command, data, fits, rfl⟩ :=
      frame_of_wellFormed (wellFormedFrame_of_validated h)
    rw [frameValidate_frameBytes station command fits] at h
    cases h
    exact ⟨fits, rfl⟩
  · rintro ⟨fits, rfl⟩
    exact frameValidate_frameBytes _ _ fits

/-- Settles O11: both operations are about the one frame of their parts, whose data fits LENGTH. -/
theorem buildAndValidateAgree : Obligations.BuildAndValidateAgree := by
  constructor
  · intro command parameterId payload frame s idle built
    rw [exec_frameBuild_ok_iff idle, frameBuild_ok_iff] at built
    rwa [exec_frameValidate_ok_iff idle, frameValidate_ok_iff]
  · intro frame parts s idle validated station
    rw [exec_frameValidate_ok_iff idle, frameValidate_ok_iff] at validated
    rwa [exec_frameBuild_ok_iff idle, frameBuild_ok_iff, requestData_zero, station]

end Sys2Proof.Machine
end

section
/-! The laws of the checksum (40_checksum.md R81). -/

namespace Sys2Proof.Machine

@[simp] theorem xorAll_append (a b : List Byte) : xorAll (a ++ b) = xorAll a ^^^ xorAll b := by
  rw [xorAll, List.foldl_append]
  exact foldl_xor (xorAll a) b

theorem xorAll_singleton (b : Byte) : xorAll [b] = b := by simp

theorem byte_xor_eq_zero_iff {a b : Byte} : a ^^^ b = 0 ↔ a = b := BitVec.xor_eq_zero_iff

/-- One byte replaced: the old one goes out of the checksum and the new one in. -/
theorem xorAll_set {bytes : List Byte} {k : Nat} {old : Byte} (new : Byte)
    (h : bytes[k]? = some old) :
    xorAll (bytes.set k new) = xorAll bytes ^^^ old ^^^ new := by
  obtain ⟨hk, rfl⟩ := List.getElem?_eq_some_iff.mp h
  have parts : xorAll bytes =
      xorAll (bytes.take k) ^^^ (bytes[k] ^^^ xorAll (bytes.drop (k + 1))) := by
    rw [← xorAll_cons, ← xorAll_append, List.cons_getElem_drop_succ, List.take_append_drop]
  rw [List.set_eq_take_append_cons_drop, if_pos hk, xorAll_append, xorAll_cons, parts]
  generalize xorAll (bytes.take k) = a, xorAll (bytes.drop (k + 1)) = c, bytes[k] = b
  calc a ^^^ (new ^^^ c)
    _ = a ^^^ (b ^^^ b ^^^ c) ^^^ new := by
      rw [BitVec.xor_self, BitVec.zero_xor, BitVec.xor_assoc, BitVec.xor_comm new]
    _ = a ^^^ (b ^^^ c) ^^^ b ^^^ new := by ac_rfl

/-- The checksum byte before the last one: with it the exclusive or is 0 (R81 c). -/
theorem checksum_iff {frame : List Byte} (long : 8 ≤ frame.length) :
    frame[frame.length - 2]? = some (xorAll (frame.take (frame.length - 2))) ↔
      xorAll (frame.take (frame.length - 1)) = 0 := by
  have last : frame.length - 2 < frame.length := by omega
  have split : frame.take (frame.length - 1) =
      frame.take (frame.length - 2) ++ [frame[frame.length - 2]] := by
    rw [← List.take_succ_eq_append_getElem last]
    congr 1
    omega
  rw [List.getElem?_eq_getElem last, split, xorAll_append, xorAll_singleton, Option.some_inj,
    byte_xor_eq_zero_iff, eq_comm]

/-- Settles O5: (a) splits the fold, (b) and (c) are (a) with a byte that cancels itself. -/
theorem checksumLaws : Obligations.ChecksumLaws :=
  ⟨xorAll_append, fun _ => ⟨by simp, by simp⟩, fun _ => checksum_iff⟩

end Sys2Proof.Machine
end

section
/-! What FRAME_VALIDATE rejects beside a frame it accepts: the frame cut short, and the frame with
one byte changed (42_frame.md R111, 70_reset_and_hazards.md section 3). -/

namespace Sys2Proof.Machine

/-- LENGTH counts the bytes, so a frame cut short has not the length it announces. -/
theorem not_wellFormedFrame_take {frame : List Byte} {k : Nat}
    (h : wellFormedFrame frame = true) (proper : k < frame.length) :
    ¬ wellFormedFrame (frame.take k) = true := by
  intro hk
  obtain ⟨long, -, -, -, len, -⟩ := (wellFormedFrame_iff _).mp h
  obtain ⟨long', -, -, -, len', -⟩ := (wellFormedFrame_iff _).mp hk
  rw [List.length_take_of_le proper.le] at long' len'
  have same : ∀ i < 8, (frame.take k).getD i 0 = frame.getD i 0 := fun i hi => by
    simp [List.getElem?_take_of_lt (show i < k by omega)]
  rw [same 4 (by decide), same 5 (by decide)] at len'
  omega

/-- All bytes of a well-formed frame but its EOT have exclusive or 0. -/
theorem xorAll_of_wellFormed {frame : List Byte} (h : wellFormedFrame frame = true) :
    xorAll (frame.take (frame.length - 1)) = 0 := by
  obtain ⟨long, -, -, -, -, sum⟩ := (wellFormedFrame_iff _).mp h
  exact (checksum_iff long).mp sum

/-- The checksum covers every byte before EOT, itself included. -/
theorem not_wellFormedFrame_set {frame : List Byte} {k : Nat} {b : Byte}
    (h : wellFormedFrame frame = true) (before : k < frame.length - 1)
    (changed : frame[k]? ≠ some b) :
    ¬ wellFormedFrame (frame.set k b) = true := by
  intro hk
  have sum := xorAll_of_wellFormed hk
  have old := List.getElem?_eq_getElem (show k < frame.length by omega)
  have covered : (frame.take (frame.length - 1))[k]? = some frame[k] := by
    rw [List.getElem?_take_of_lt before, old]
  rw [List.length_set, List.take_set, xorAll_set b covered, xorAll_of_wellFormed h,
    byte_xor_eq_zero_iff] at sum
  have same : frame[k] = b := BitVec.zero_xor.symm.trans sum
  exact changed (same ▸ old)

/-- Settles O12: what is left of the frame has the LENGTH of the whole and fewer bytes. -/
theorem validateRejectsProperPrefixes : Obligations.ValidateRejectsProperPrefixes := by
  intro frame parts k s idle accepted proper
  rw [exec_frameValidate_ok_iff idle] at accepted
  exact exec_frameValidate_malformed idle
    (not_wellFormedFrame_take (wellFormedFrame_of_validated accepted) proper)

/-- Settles O13: a changed byte changes the exclusive or, which is 0 for every frame. -/
theorem validateRejectsOneChangedByte : Obligations.ValidateRejectsOneChangedByte := by
  intro frame parts k b s idle accepted before changed
  rw [exec_frameValidate_ok_iff idle] at accepted
  exact exec_frameValidate_malformed idle
    (not_wellFormedFrame_set (wellFormedFrame_of_validated accepted) before changed)

end Sys2Proof.Machine
end

section
/-! TS_ENCODE and TS_DECODE undo each other (41_timestamp.md, Laws). -/

namespace Sys2Proof.Machine

/-- The fields come back out of the packed value. -/
theorem unpackTimestamp_packTimestamp {t : DateTime} (valid : validDateTime t = true)
    (lo : 2000 ≤ t.year) (hi : t.year ≤ 2063) :
    unpackTimestamp (BitVec.ofNat 32 (packTimestamp t)) = t := by
  obtain ⟨hmonth, hday, hhour, hminute, hsecond⟩ := validDateTime_bounds valid
  have packed := packTimestamp_eq_add valid
  obtain ⟨year, month, day, hour, minute, second⟩ := t
  simp only at *
  have fits : packTimestamp ⟨year, month, day, hour, minute, second⟩ < 2 ^ 32 := by omega
  rw [unpackTimestamp_eq, BitVec.toNat_ofNat, Nat.mod_eq_of_lt fits, packed]
  simp only [DateTime.mk.injEq]
  omega

/-- The packed value of the fields is the word they came from. -/
theorem packTimestamp_unpackTimestamp {raw : Word}
    (valid : validDateTime (unpackTimestamp raw) = true) :
    packTimestamp (unpackTimestamp raw) = raw.toNat := by
  rw [packTimestamp_eq_add valid, unpackTimestamp_eq]
  simp only
  omega

theorem encodableYear_unpackTimestamp (raw : Word) :
    encodableYear (unpackTimestamp raw).year = true := by
  rw [encodableYear_iff, unpackTimestamp_eq]
  have := raw.isLt
  simp only
  omega

theorem exec_tsDecode_ok_iff {s : State} {raw : Word} {t : DateTime} (idle : s.phase = .idle) :
    exec (.tsDecode raw) s =
        .next { s with completions := s.completions ++ [.ok (.dateTime t)] } ↔
      validDateTime t = true ∧ unpackTimestamp raw = t := by
  rw [exec_tsDecode raw idle, next_completion_inj,
    ofResult_eq_ok_iff fun _ _ => Value.dateTime.inj, tsDecode_ok_iff]

/-- Settles O8: in both directions the packed word and its fields determine each other. -/
theorem timestampRoundTrip : Obligations.TimestampRoundTrip := by
  constructor
  · intro t s idle valid lo hi
    have encoded := tsEncode_ok ((encodableYear_iff _).mpr ⟨lo, hi⟩) valid
    refine ⟨be32 (BitVec.ofNat 32 (packTimestamp t)), ?_, ?_⟩
    · rw [exec_tsEncode t idle, encoded]
      rfl
    · rw [exec_tsDecode_ok_iff idle, beNat_be32, BitVec.ofNat_toNat, BitVec.setWidth_eq]
      exact ⟨valid, unpackTimestamp_packTimestamp valid lo hi⟩
  · intro raw t s idle decoded
    obtain ⟨valid, rfl⟩ := (exec_tsDecode_ok_iff idle).mp decoded
    rw [exec_tsEncode _ idle, tsEncode_ok (encodableYear_unpackTimestamp raw) valid,
      packTimestamp_unpackTimestamp valid, BitVec.ofNat_toNat, BitVec.setWidth_eq]
    rfl

end Sys2Proof.Machine
end

section
/-! Words of msg_data, digits and lines: what the decoder reads back and what it was written from
(30_encoding.md R60, R61, 45_session.md R183). -/

namespace Sys2Proof

open Machine

/-! ### Words of msg_data -/

theorem ofNat_beNat_be32 (w : Word) : BitVec.ofNat 32 (beNat (be32 w)) = w := by
  rw [beNat_be32, BitVec.ofNat_toNat, BitVec.setWidth_eq]

/-- Four bytes are the bytes of the word they are read as. -/
theorem be32_ofNat_beNat (a b c d : Byte) :
    be32 (BitVec.ofNat 32 (beNat [a, b, c, d])) = [a, b, c, d] := by
  have := b.isLt
  have := c.isLt
  have := d.isLt
  rw [be32_ofNat, beNat_quad]
  congr <;> refine BitVec.eq_of_toNat_eq ?_ <;> rw [BitVec.toNat_ofNat] <;> omega

theorem wordsOf_be32s (ws : List Word) : wordsOf (be32s ws) = some ws := by
  induction ws with
  | nil => rfl
  | cons w ws ih =>
    have first : wordsOf (be32 w ++ be32s ws) =
        (wordsOf (be32s ws)).map (BitVec.ofNat 32 (beNat (be32 w)) :: ·) := rfl
    rw [be32s_cons, first, ih, ofNat_beNat_be32]
    rfl

theorem be32s_of_wordsOf {bytes : List Byte} {ws : List Word} (h : wordsOf bytes = some ws) :
    bytes = be32s ws := by
  induction bytes using wordsOf.induct generalizing ws with
  | case1 =>
    cases h
    rfl
  | case2 a b c d rest ih =>
    obtain ⟨others, hothers, rfl⟩ := Option.map_eq_some_iff.mp h
    rw [be32s_cons, be32_ofNat_beNat, ← ih hothers]
    rfl
  | case3 bytes notNil notFour =>
    rw [wordsOf] at h
    · cases h
    · exact notNil
    · exact notFour

/-! ### The lines -/

theorem newlineFree_append (a b : List Byte) :
    newlineFree (a ++ b) = (newlineFree a && newlineFree b) := List.all_append

theorem lineText_iff {bytes text : List Byte} :
    lineText bytes = some text ↔ bytes = text ++ [Config.cr] ∧ newlineFree text = true := by
  unfold lineText
  constructor
  · intro h
    split at h
    · rename_i hline
      obtain ⟨hcr, free⟩ := hline
      cases h
      exact ⟨(List.dropLast_append_getLast? _ hcr).symm, free⟩
    · cases h
  · rintro ⟨rfl, free⟩
    simp [free]

theorem digitValue_iff {c : Byte} {d : Nat} :
    digitValue c = some d ↔ d < 10 ∧ c = BitVec.ofNat 8 (0x30 + d) := by
  have digit : (c = BitVec.ofNat 8 (0x30 + d)) ↔ c.toNat = (0x30 + d) % 2 ^ 8 := by
    rw [← BitVec.toNat_inj, BitVec.toNat_ofNat]
  rw [digit]
  unfold digitValue
  split
  · rw [Option.some_inj]
    omega
  · have := c.isLt
    simp only [reduceCtorEq, false_iff]
    omega

/-- `param:02d` of a number below 100 is its tens and its units. -/
theorem twoDigits_eq {tens units : Nat} (ht : tens < 10) (hu : units < 10) :
    twoDigits (10 * tens + units) =
      [BitVec.ofNat 8 (0x30 + tens), BitVec.ofNat 8 (0x30 + units)] := by
  rw [twoDigits, show (10 * tens + units) / 10 % 10 = tens by omega,
    show (10 * tens + units) % 10 = units by omega]

theorem newlineFree_twoDigits (n : Nat) : newlineFree (twoDigits n) = true := by
  have free : ∀ d < 10, newlineFree [BitVec.ofNat 8 (0x30 + d)] = true := by decide
  have tens := free (n / 10 % 10) (Nat.mod_lt _ (by decide))
  have units := free (n % 10) (Nat.mod_lt _ (by decide))
  exact (newlineFree_append [_] [_]).trans (by rw [tens, units]; rfl)

theorem decodeVi_ok (text : List Byte) {param : Nat} (h : param < 100) :
    decodeVi (text ++ twoDigits param) = .ok (.legacyVi text param) := by
  obtain ⟨tens, units, ht, hu, rfl⟩ :
      ∃ tens units, tens < 10 ∧ units < 10 ∧ param = 10 * tens + units :=
    ⟨param / 10, param % 10, by omega, by omega, by omega⟩
  have cut : (text ++ twoDigits (10 * tens + units)).length - 2 = text.length := by
    simp [twoDigits]
  rw [decodeVi, cut, List.drop_left, List.take_left, twoDigits_eq ht hu, List.map_cons,
    List.map_cons, digitValue_iff.mpr ⟨ht, rfl⟩, digitValue_iff.mpr ⟨hu, rfl⟩]
  rfl

theorem of_decodeVi {text : List Byte} {i : Instr} (h : decodeVi text = .ok i) :
    ∃ stationText param, param < 100 ∧ i = .legacyVi stationText param ∧
      text = stationText ++ twoDigits param := by
  unfold decodeVi at h
  split at h
  · rename_i hi lo digits
    cases h
    obtain ⟨a, as, back, ha, hrest⟩ := List.map_eq_cons_iff.mp digits
    obtain ⟨b, bs, rfl, hb, hnil⟩ := List.map_eq_cons_iff.mp hrest
    obtain rfl := List.map_eq_nil_iff.mp hnil
    obtain ⟨hhi, rfl⟩ := digitValue_iff.mp ha
    obtain ⟨hlo, rfl⟩ := digitValue_iff.mp hb
    refine ⟨_, _, by omega, rfl, ?_⟩
    rw [twoDigits_eq hhi hlo, ← back, List.take_append_drop]
  · cases h

end Sys2Proof
end

section
/-! The decoder and the encoder undo each other (30_encoding.md R50, R61, R64,
44_logged_data.md R146, 45_session.md R183). -/

namespace Sys2Proof

open Machine

/-! ### Decode of encode -/

theorem decode_frameBytes (station command : Byte) {msgData : List Byte}
    (fits : msgData.length ≤ 65535) :
    decode (.command (frameBytes station command msgData)) =
      decodeParts ⟨station, command, msgData⟩ := by
  have framed : decode (.command (frameBytes station command msgData)) =
      decodeFrame (frameBytes station command msgData) := rfl
  rw [framed, decodeFrame, frameValidate_frameBytes station command fits]

section
variable (station : Byte) {msgData : List Byte}

theorem decodeParts_getValues {ids : List Word} (words : wordsOf msgData = some ids) :
    decodeParts ⟨station, Config.cmdGetValues, msgData⟩ = .ok (.getValues station ids) := by
  simp [decodeParts, words, Config.cmdGetValues, Config.cmdGetId]

theorem decodeParts_setValue {id value : Word} (words : wordsOf msgData = some [id, value]) :
    decodeParts ⟨station, Config.cmdSetValue, msgData⟩ = .ok (.setValue station id value) := by
  simp [decodeParts, words, Config.cmdSetValue, Config.cmdGetId, Config.cmdGetValues]

theorem decodeParts_getLoggedData {start stop : Word}
    (words : wordsOf msgData = some [start, stop]) :
    decodeParts ⟨station, Config.cmdGetLoggedData, msgData⟩ =
      .ok (.getLoggedData station start stop) := by
  simp [decodeParts, words, Config.cmdGetLoggedData, Config.cmdGetId, Config.cmdGetValues,
    Config.cmdSetValue, Config.cmdGetLogConfig]

end

theorem decodeLine_text {text : List Byte} (free : newlineFree text = true) :
    decodeLine (text ++ [Config.cr]) =
      if text.take 2 = Config.legacyIdText then .ok (.legacyId (text.drop 2))
      else if text.take 2 = Config.legacyViText then decodeVi (text.drop 2)
      else .error .unknownCommand := by
  rw [decodeLine, lineText_iff.mpr ⟨rfl, free⟩]

theorem decode_legacyId {text : List Byte} (free : newlineFree text = true) :
    decode (encode (.legacyId text)) = .ok (.legacyId text) :=
  decodeLine_text (text := 0x49 :: 0x44 :: text) free

theorem decode_legacyVi {text : List Byte} {param : Nat} (free : newlineFree text = true)
    (h : param < 100) : decode (encode (.legacyVi text param)) = .ok (.legacyVi text param) := by
  have body : newlineFree (text ++ twoDigits param) = true := by
    rw [newlineFree_append, free, newlineFree_twoDigits]
    rfl
  calc decode (encode (.legacyVi text param))
    _ = decodeVi (text ++ twoDigits param) :=
      decodeLine_text (text := 0x56 :: 0x49 :: (text ++ twoDigits param)) body
    _ = .ok (.legacyVi text param) := decodeVi_ok text h

/-- Settles O40: an operation and a record by their code, a wire command by its frame and the words
in it, a legacy line by its text. -/
theorem decodeOfEncode : Obligations.DecodeOfEncode := by
  intro i wf
  cases i with
  | getId station => exact decode_frameBytes station _ (by decide)
  | getLogConfig station => exact decode_frameBytes station _ (by decide)
  | setValue station id value =>
    exact (decode_frameBytes station _ (by simp)).trans
      (decodeParts_setValue station (wordsOf_be32s [id, value]))
  | getLoggedData station start stop =>
    exact (decode_frameBytes station _ (by simp)).trans
      (decodeParts_getLoggedData station (wordsOf_be32s [start, stop]))
  | getValues station ids =>
    have fits : 4 * ids.length ≤ 65535 := of_decide_eq_true wf
    exact (decode_frameBytes station _ (by simpa using fits)).trans
      (decodeParts_getValues station (wordsOf_be32s ids))
  | legacyId text => exact decode_legacyId wf
  | legacyVi text param =>
    obtain ⟨free, two⟩ := Bool.and_eq_true_iff.mp wf
    exact decode_legacyVi free (of_decide_eq_true two)
  | _ => rfl

/-! ### Encode of decode -/

/-- The parts of a frame that is a wire command are what its encoding is built from. -/
theorem encode_of_decodeParts {p : FrameParts} {i : Instr} (h : decodeParts p = .ok i)
    (fits : p.msgData.length ≤ 65535) :
    i.wf = true ∧ encode i = .command (frameBytes p.station p.command p.msgData) := by
  obtain ⟨station, command, msgData⟩ := p
  unfold decodeParts at h
  split_ifs at h with code code code code code
  case pos =>
    split at h <;> cases h
    rename_i empty
    exact ⟨rfl, by rw [encode, code, empty]⟩
  case pos =>
    split at h <;> cases h
    rename_i ids words
    obtain rfl := be32s_of_wordsOf words
    exact ⟨decide_eq_true (be32s_length ids ▸ fits), by rw [encode, code]⟩
  case pos =>
    split at h <;> cases h
    rename_i words
    exact ⟨rfl, by rw [encode, code, be32s_of_wordsOf words]⟩
  case pos =>
    split at h <;> cases h
    rename_i empty
    exact ⟨rfl, by rw [encode, code, empty]⟩
  case pos =>
    split at h <;> cases h
    rename_i words
    exact ⟨rfl, by rw [encode, code, be32s_of_wordsOf words]⟩

theorem encode_of_decodeFrame {bytes : List Byte} {i : Instr} (h : decodeFrame bytes = .ok i) :
    i.wf = true ∧ encode i = .command bytes := by
  unfold decodeFrame at h
  split at h
  · rename_i parts validated
    obtain ⟨fits, rfl⟩ := frameValidate_ok_iff.mp validated
    exact encode_of_decodeParts h fits
  · cases h

/-- The letters of a line, then what follows them. -/
theorem encode_of_decodeLine {bytes : List Byte} {i : Instr} (h : decodeLine bytes = .ok i) :
    i.wf = true ∧ encode i = .command bytes := by
  obtain ⟨text, isText⟩ : ∃ text, lineText bytes = some text := by
    cases isText : lineText bytes with
    | none =>
      rw [decodeLine, isText] at h
      cases h
    | some text => exact ⟨text, rfl⟩
  obtain ⟨rfl, free⟩ := lineText_iff.mp isText
  rw [decodeLine_text free] at h
  rw [← List.take_append_drop 2 text, newlineFree_append, Bool.and_eq_true] at free
  rw [← List.take_append_drop 2 text]
  obtain ⟨-, freeRest⟩ := free
  split at h
  case isTrue letters =>
    cases h
    rw [letters]
    exact ⟨freeRest, rfl⟩
  split at h
  case isTrue letters =>
    obtain ⟨stationText, param, two, rfl, rest⟩ := of_decodeVi h
    rw [rest, newlineFree_append, Bool.and_eq_true] at freeRest
    rw [letters, rest]
    exact ⟨Bool.and_eq_true_iff.mpr ⟨freeRest.1, decide_eq_true two⟩, rfl⟩
  · cases h

theorem encode_of_decodeRecord {bytes : List Byte} {i : Instr}
    (h : decode (.record bytes) = .ok i) : i.wf = true ∧ encode i = .record bytes := by
  obtain ⟨rest, rfl, decoded⟩ | ⟨rest, rfl, decoded⟩ | rejected := decode_record_cases bytes
  · rw [decoded] at h
    cases h
    exact ⟨rfl, rfl⟩
  · rw [decoded] at h
    cases h
    exact ⟨rfl, rfl⟩
  · rw [rejected] at h
    cases h

/-- Settles O41: a frame is built from its parts, a line from its letters and text, and a record
from its type byte and the rest. -/
theorem encodeOfDecode : Obligations.EncodeOfDecode := by
  refine ⟨fun bytes i h => ?_, fun bytes i => encode_of_decodeRecord⟩
  change decodeCommand bytes = .ok i at h
  unfold decodeCommand at h
  split at h
  · cases h
  split at h
  · exact encode_of_decodeFrame h
  · exact encode_of_decodeLine h

end Sys2Proof
end

section
/-! A wire command or a legacy line is the request of one exchange: each is wireExchange of its own
dialect, request and await (45_session.md R181, R183). -/

namespace Sys2Proof.Machine

variable (s : State) (station : Byte)

theorem exec_getId : exec (.getId station) s =
    wireExchange .binary (frameBuild station Config.cmdGetId 0 []) .words s := rfl

theorem exec_getValues (ids : List Word) : exec (.getValues station ids) s =
    wireExchange .binary (frameBuild station Config.cmdGetValues 0 (be32s ids)) .words s := rfl

theorem exec_setValue (id value : Word) : exec (.setValue station id value) s =
    wireExchange .binary (frameBuild station Config.cmdSetValue 0 (be32s [id, value])) .words s :=
  rfl

theorem exec_getLogConfig : exec (.getLogConfig station) s =
    wireExchange .binary (frameBuild station Config.cmdGetLogConfig 0 []) .words s := rfl

theorem exec_getLoggedData (start stop : Word) : exec (.getLoggedData station start stop) s =
    wireExchange .binary (frameBuild station Config.cmdGetLoggedData 0 (be32s [start, stop]))
      .records s := rfl

theorem exec_legacyId (text : List Byte) : exec (.legacyId text) s =
    wireExchange .legacy (.ok (legacyLine Config.legacyIdText text)) .text s := rfl

theorem exec_legacyVi (text : List Byte) (param : Nat) : exec (.legacyVi text param) s =
    wireExchange .legacy (.ok (viLine text param)) .text s := rfl

end Sys2Proof.Machine
end

section
/-! Once, everything a step can do to the block's fields, the exchange in progress and what the host
was handed; the rules about every step follow from it (00_scope.md R8, 10_state.md R13 to R17). -/

namespace Sys2Proof.Machine

/-! ### What a change is -/

/-- The fields the rules about every step speak of. -/
structure View where
  stationId : Byte
  dialect : Dialect
  phase : Phase
  rxbuf : List Byte
  framer : Option Framer
  session : Option Exchange
  completions : List Completion

def State.view (s : State) : View :=
  ⟨s.stationId, s.dialect, s.phase, s.rxbuf, s.framer, s.session, s.completions⟩

/-- A poll in progress has a poll left, and no more than the bound (45_session.md R180). -/
def Await.Bounded : Await → Prop
  | .setStatePoll _ left => 1 ≤ left ∧ left ≤ Config.hw.convergenceBound
  | _ => True

/-- The exchange in progress, if one is, has its polls within the bound. -/
def PollsWithin (session : Option Exchange) : Prop :=
  ∀ stage k, session = some ⟨stage, k⟩ → k.Bounded

/-- The receive is as it was. -/
abbrev SameReceive (v w : View) : Prop := w.phase = v.phase ∧ w.rxbuf = v.rxbuf

/-- What an event does to the receive, the exchange in progress and the outcomes. -/
inductive Effect (v w : View) : Prop
  /-- Nothing. -/
  | quiet (receive : SameReceive v w) (session : w.session = v.session)
      (outcomes : w.completions = v.completions)
  /-- The host is handed an outcome, which may be the end of the exchange. -/
  | hands (c : Completion) (receive : SameReceive v w)
      (session : w.session = v.session ∨ w.session = none)
      (outcomes : w.completions = v.completions ++ [c])
  /-- An exchange begins or goes on. -/
  | engages (stage : Stage) (k : Await) (receive : SameReceive v w) (acts : stage ≠ .waiting)
      (polls : PollsWithin v.session → k.Bounded) (session : w.session = some ⟨stage, k⟩)
      (outcomes : w.completions = v.completions)
  /-- A receive begins, of the host or of the exchange. -/
  | begins (phase : w.phase = .rxWait) (rxbuf : w.rxbuf = [])
      (session : w.session = v.session ∨
        ∃ stage k, v.session = some ⟨stage, k⟩ ∧ w.session = some ⟨.waiting, k⟩)
      (outcomes : w.completions = v.completions)
  /-- Bytes arrive, and the receive goes on. -/
  | grows (phase : w.phase = .rxWait) (fits : w.rxbuf.length ≤ Config.hw.rxbufMax)
      (more : terminated w.dialect w.rxbuf = false) (session : w.session = v.session)
      (outcomes : w.completions = v.completions)
  /-- The receive ends, and nobody waits for it any more. -/
  | ends (phase : w.phase = .idle) (rxbuf : w.rxbuf = [])
      (session : ∀ stage k, w.session = some ⟨stage, k⟩ →
        stage ≠ .waiting ∧ ∃ stage', v.session = some ⟨stage', k⟩)
      (outcomes : w.completions = v.completions ∨ ∃ c, w.completions = v.completions ++ [c])

/-- What every event but the reset does. -/
structure Change (v w : View) : Prop where
  station : w.stationId = v.stationId
  dialect : w.dialect = v.dialect
  framer : w.framer = v.framer ∨ w.framer = none
  effect : Effect v w

variable {s t : State}

/-! ### The shared operations -/

theorem change_refl (s : State) : Change s.view s.view :=
  ⟨rfl, rfl, .inl rfl, .quiet ⟨rfl, rfl⟩ rfl rfl⟩

theorem change_complete (c : Completion) (s : State) : Change s.view (complete c s).view :=
  ⟨rfl, rfl, .inl rfl, .hands c ⟨rfl, rfl⟩ (.inl rfl) rfl⟩

theorem change_complete_disengage (c : Completion) (s : State) :
    Change s.view (complete c (disengage s)).view :=
  ⟨rfl, rfl, .inl rfl, .hands c ⟨rfl, rfl⟩ (.inr rfl) rfl⟩

theorem change_endRecords (r : Result (List LoggedRecord)) (s : State) :
    Change s.view (endRecords r s).view :=
  ⟨rfl, rfl, .inr rfl, .hands _ ⟨rfl, rfl⟩ (.inl rfl) rfl⟩

theorem change_beginReceive (s : State) : Change s.view (beginReceive s).view :=
  ⟨rfl, rfl, .inl rfl, .begins rfl rfl (.inl rfl) rfl⟩

theorem change_engage {stage : Stage} {k : Await} (acts : stage ≠ .waiting)
    (polls : PollsWithin s.session → k.Bounded) : Change s.view (engage stage k s).view :=
  ⟨rfl, rfl, .inl rfl, .engages stage k ⟨rfl, rfl⟩ acts polls rfl rfl⟩

theorem change_exchangeSend (bytes : List Byte) {k : Await}
    (polls : PollsWithin s.session → k.Bounded) : Change s.view (exchangeSend bytes k s).view := by
  obtain ⟨-, sent⟩ | ⟨-, failed⟩ := exchangeSend_cases bytes k s
  · rw [sent]
    exact change_engage (s := sentOver bytes s) (by decide) polls
  · rw [failed]
    exact change_complete_disengage (.err .connectionError) s

theorem responseStage_acts (s : State) (response : List Byte) :
    responseStage s response ≠ .waiting := by
  unfold responseStage
  split <;> exact Stage.noConfusion

/-- The end of a receive, with or without an exchange that waits for it. -/
theorem change_finishReceive (r : Result (List Byte)) (s : State) :
    Change s.view (finishReceive r s).view := by
  by_cases waits : ∃ k, s.session = some ⟨.waiting, k⟩
  · obtain ⟨k, hk⟩ := waits
    rw [finishReceive_exchange r hk]
    obtain ⟨bytes, -, goesOn⟩ | ⟨e, -, failed⟩ :=
      afterOperation_cases r (responseStage s) k (endReceive s)
    · rw [goesOn]
      refine ⟨rfl, rfl, .inl rfl, .ends rfl rfl ?_ (.inl rfl)⟩
      rintro _ _ ⟨⟩
      exact ⟨responseStage_acts s bytes, _, hk⟩
    · rw [failed]
      exact ⟨rfl, rfl, .inl rfl, .ends rfl rfl nofun (.inr ⟨_, rfl⟩)⟩
  · have host : ∀ k, s.session ≠ some ⟨.waiting, k⟩ := not_exists.mp waits
    rw [finishReceive_host r host]
    refine ⟨rfl, rfl, .inl rfl, .ends rfl rfl (fun stage k hk => ⟨?_, stage, hk⟩) (.inr ⟨_, rfl⟩)⟩
    rintro rfl
    exact host k hk

/-! ### Instructions -/

theorem change_acceptIdle {next : State} (h : Change s.view next.view)
    (accepted : acceptIdle s next = .next t) : Change s.view t.view := by
  obtain ⟨-, refused⟩ | ⟨-, made⟩ := acceptIdle_cases (s := s) next
  · cases refused.symm.trans accepted
    exact change_complete .refused s
  · cases made.symm.trans accepted
    exact h

theorem change_wireExchange {dialect : Dialect} {request : Result (List Byte)} {k : Await}
    (h : wireExchange dialect request k s = .next t) (plain : k.Bounded) :
    Change s.view t.view := by
  unfold wireExchange at h
  cases h
  split
  · exact change_complete .refused s
  split
  · split
    · exact change_complete _ s
    · exact change_exchangeSend _ fun _ => plain
  · exact change_complete _ s

theorem change_exec {i : Instr} (noRecord : ∀ bytes, i ≠ .recHeader bytes ∧ i ≠ .recData bytes)
    (h : exec i s = .next t) : Change s.view t.view := by
  cases i with
  | checksum | tsDecode | tsEncode | frameBuild | frameValidate | respDecode =>
    exact change_acceptIdle (change_complete _ s) h
  | frameRx => exact change_acceptIdle (change_beginReceive s) h
  | logDecode response =>
    obtain ⟨-, refused⟩ | ⟨-, r, decoded⟩ := execLogDecode_cases response s
    · cases refused.symm.trans h
      exact change_complete .refused s
    · cases decoded.symm.trans h
      exact change_endRecords r s
  | getId => exact change_wireExchange ((exec_getId ..).symm.trans h) trivial
  | getValues => exact change_wireExchange ((exec_getValues ..).symm.trans h) trivial
  | setValue => exact change_wireExchange ((exec_setValue ..).symm.trans h) trivial
  | getLogConfig => exact change_wireExchange ((exec_getLogConfig ..).symm.trans h) trivial
  | getLoggedData => exact change_wireExchange ((exec_getLoggedData ..).symm.trans h) trivial
  | legacyId => exact change_wireExchange ((exec_legacyId ..).symm.trans h) trivial
  | legacyVi => exact change_wireExchange ((exec_legacyVi ..).symm.trans h) trivial
  | recHeader rest => exact absurd rfl (noRecord rest).1
  | recData rest => exact absurd rfl (noRecord rest).2

/-! ### The exchange in progress -/

/-- An exchange goes on from u, or it is over and its outcome is handed over; what is left of its
polls stays within the bound if the given condition holds. -/
inductive Continues (bounded : Prop) (u : State) : State → Prop
  | outcome (c : Completion) : Continues bounded u (complete c u)
  | exchange (stage : Stage) (k : Await) (acts : stage ≠ .waiting) (polls : bounded → k.Bounded) :
      Continues bounded u (engage stage k u)

variable {bounded : Prop} {u : State}

theorem Continues.change (h : Continues bounded s t) (polls : PollsWithin s.session → bounded) :
    Change s.view t.view := by
  cases h with
  | outcome c => exact change_complete c s
  | exchange stage k acts within => exact change_engage acts (within ∘ polls)

theorem Continues.change_disengage (h : Continues bounded (disengage s) t)
    (polls : PollsWithin s.session → bounded) : Change s.view t.view := by
  cases h with
  | outcome c => exact change_complete_disengage c s
  | exchange stage k acts within => exact change_engage acts (within ∘ polls)

theorem continues_withInts (response : List Byte) (k : List Int → State)
    (h : ∀ ints, Continues bounded u (k ints)) : Continues bounded u (withInts response u k) := by
  unfold withInts
  split
  · exact .outcome _
  · exact h _

theorem continues_legacyValues (ids : List Word) (got : List (Word × List Byte)) (u : State) :
    Continues bounded u (legacyValues ids got u) := by
  induction ids generalizing got with
  | nil => exact .outcome _
  | cons id rest ih =>
    rw [legacyValues]
    split
    · exact .exchange _ _ Stage.noConfusion fun _ => trivial
    · exact ih _

theorem continues_afterPoll (target : TargetState) (left : Nat) (ints : List Int) (u : State) :
    Continues (Await.setStatePoll target left).Bounded u (afterPoll target left ints u) := by
  unfold afterPoll
  split
  · exact .outcome _
  split
  · exact .outcome _
  · refine .exchange _ _ Stage.noConfusion fun within => ?_
    simp only [Await.Bounded] at within ⊢
    omega

/-- The first poll has the whole bound left, which is positive (92_eei_decisions.md D30). -/
theorem firstPoll_bounded (target : TargetState) :
    (Await.setStatePoll target Config.hw.convergenceBound).Bounded :=
  ⟨Nat.le_add_left 1 Config.pollExtra, le_rfl⟩

theorem continues_resume (k : Await) (response : List Byte) (u : State) :
    Continues k.Bounded u (resume k response u) := by
  cases k with
  | records | text | operatingStateText => exact .outcome _
  | words | identifySecond | values | logConfig | operatingState =>
    exact continues_withInts response _ fun _ => .outcome _
  | identifyFirst =>
    exact continues_withInts response _ fun _ =>
      .exchange _ _ Stage.noConfusion fun _ => trivial
  | valuesText => exact continues_legacyValues _ _ u
  | setStateReply target =>
    exact continues_withInts response _ fun _ =>
      .exchange _ _ Stage.noConfusion fun _ => firstPoll_bounded target
  | setStatePoll => exact continues_withInts response _ fun _ => continues_afterPoll _ _ _ u

theorem continues_afterOperation {α : Type} (r : Result α) {next : α → Stage} (k : Await)
    (acts : ∀ v, next v ≠ .waiting) (s : State) :
    Continues k.Bounded (disengage s) (afterOperation r next k s) := by
  cases r with
  | ok v => exact .exchange (u := disengage s) _ k (acts v) id
  | error e => exact .outcome _

theorem change_exchangeStep {x : Exchange} (hx : s.session = some x) :
    Change s.view (exchangeStep x s).view := by
  obtain ⟨stage, k⟩ := x
  have polls : PollsWithin s.session → k.Bounded := fun within => within stage k hx
  cases stage with
  | encodeStart | encodeStop | build | validate =>
    exact (continues_afterOperation _ k (fun _ => Stage.noConfusion) s).change_disengage polls
  | send request => exact change_exchangeSend request polls
  | receive => exact ⟨rfl, rfl, .inl rfl, .begins rfl rfl (.inr ⟨_, k, hx, rfl⟩) rfl⟩
  | waiting => exact change_refl s
  | decode response => exact (continues_resume k response _).change_disengage polls

theorem change_hostTurn (s : State) : Change s.view (hostTurn s).view := by
  unfold hostTurn
  split
  · split
    · exact change_refl s
    · exact change_exchangeStep ‹_›
  · exact change_refl s

/-! ### Calls -/

theorem continues_binaryOnly {next : State} (h : Continues bounded s next) :
    Continues bounded s (binaryOnly s next) := by
  unfold binaryOnly
  split
  · exact h
  · exact .outcome _

/-- No session operation begins with a poll. -/
theorem continues_callSession (op : SessionOp) (s : State) :
    Continues True s (callSession op s) := by
  have begins (stage : Stage) (k : Await) (acts : stage ≠ .waiting) (plain : k.Bounded) :
      Continues True s (engage stage k s) := .exchange stage k acts fun _ => plain
  unfold callSession
  split
  · exact .outcome _
  cases op with
  | identify =>
    show Continues True s (callIdentify s)
    unfold callIdentify
    split <;> exact begins _ _ Stage.noConfusion trivial
  | getParameterValues ids =>
    show Continues True s (callGetValues ids s)
    unfold callGetValues
    split
    · exact begins _ _ Stage.noConfusion trivial
    · exact continues_legacyValues ids [] s
  | setParameterValue | getLoggingConfiguration | setOperatingState =>
    exact continues_binaryOnly (begins _ _ Stage.noConfusion trivial)
  | getLoggedData start stop =>
    refine continues_binaryOnly ?_
    split
    · exact begins _ _ Stage.noConfusion trivial
    · exact .outcome _
  | getOperatingState =>
    show Continues True s (callGetState s)
    unfold callGetState
    split <;> exact begins _ _ Stage.noConfusion trivial

/-! ### Events -/

theorem change_onDisconnect (s : State) : Change s.view (onDisconnect s).view :=
  change_finishReceive (.error .connectionError) { s with link := .closed }

theorem change_onChunk (c : List Byte) (waits : s.phase = .rxWait) :
    Change s.view (onChunk c s).view := by
  by_cases fits : s.rxbuf.length + c.length ≤ Config.hw.rxbufMax
  · by_cases done : terminated s.dialect (s.rxbuf ++ c) = true
    · rw [onChunk_terminated fits done]
      exact change_finishReceive _ s
    · rw [onChunk_goesOn fits done]
      exact ⟨rfl, rfl, .inl rfl,
        .grows waits (List.length_append ▸ fits) (Bool.eq_false_iff.mpr done) rfl rfl⟩
  · rw [onChunk_overflow (Nat.lt_of_not_le fits)]
    exact change_finishReceive _ s

theorem change_transportAct (act : TransportAct) (s : State) :
    Change s.view (transportAct act s).view := by
  cases act with
  | arrive bytes =>
    dsimp only [transportAct]
    split
    · exact change_refl _
    · exact change_refl s
  | chunk size =>
    show Change s.view (deliverChunk size s).view
    unfold deliverChunk
    split
    · split
      · exact change_onDisconnect s
      · exact change_onChunk (s := chunkTaken size s) _ ‹_›
    · exact change_refl s
  | timeout =>
    dsimp only [transportAct]
    split
    · exact change_finishReceive _ s
    · exact change_refl s
  | disconnect =>
    dsimp only [transportAct]
    split
    · exact change_onDisconnect s
    split
    · exact change_refl _
    · exact change_refl s
  | setReachable on => exact change_refl s

theorem change_quietTurn (s : State) : Change s.view (quietTurn s).view := by
  unfold quietTurn
  split
  · exact change_hostTurn s
  · unfold transportTurn
    split
    · exact change_onDisconnect s
    · exact change_refl s

/-- Opening a connection, sending over it, or failing to. -/
theorem change_hostOpen (s : State) : Change s.view (hostOpen s).view := by
  unfold hostOpen connect
  cases s.link with
  | closed =>
    cases s.reachable with
    | true => exact change_refl s
    | false => exact change_complete _ s
  | opened | dropped => exact change_refl s

theorem change_hostSend (bytes : List Byte) (s : State) :
    Change s.view (hostSend bytes s).view := by
  unfold hostSend transmit
  cases s.link with
  | opened => exact change_refl s
  | closed | dropped => exact change_complete _ s

theorem change_hostAct {act : HostAct} (noReset : ∀ station dialect, act ≠ .reset station dialect)
    (s : State) : Change s.view (hostAct act s).view := by
  cases act with
  | call op => exact (continues_callSession op s).change fun _ => trivial
  | proceed => exact change_hostTurn s
  | send bytes => exact change_hostSend bytes s
  | openLink => exact change_hostOpen s
  | closeLink =>
    show Change s.view (hostClose s).view
    unfold hostClose
    split
    · exact change_onDisconnect s
    · exact change_refl s
  | chooseValidation on => exact change_refl s
  | reset station dialect => exact absurd rfl (noReset station dialect)

/-! ### The step -/

/-- A step is the reset, a record of the LOG_DECODE in progress, or a change. -/
inductive StepChange (s t : State) : Prop
  | reset (station : Byte) (dialect : Dialect) (rest : List Event) (hf : s.framer = none)
      (ha : s.agenda = .host (.reset station dialect) :: rest)
      (ht : t = resetBlock station dialect (withAgenda s rest))
  | record (f : Framer) (hf : s.framer = some f)
      (ht : t = afterRecord (framerTurn Config.hw f) s)
  | change (hf : s.framer = none) (h : Change s.view t.view)

theorem step_change (h : step s = .next t) : StepChange s t := by
  cases step_cases h with
  | record f hf ht => exact .record f hf ht
  | quiet hf _ ht => exact .change hf (ht ▸ change_quietTurn s)
  | reserved _ _ rest hf _ ht =>
    exact .change hf (ht ▸ change_complete .refused (withAgenda s rest))
  | exec i e rest hf _ noRecord ht =>
    exact .change hf (change_exec (s := withAgenda s rest) noRecord ht)
  | host act rest hf ha ht =>
    by_cases reset : ∃ station dialect, act = .reset station dialect
    · obtain ⟨station, dialect, rfl⟩ := reset
      exact .reset station dialect rest hf ha ht
    · have noReset : ∀ station dialect, act ≠ .reset station dialect := fun station dialect h =>
        reset ⟨station, dialect, h⟩
      exact .change hf (ht ▸ change_hostAct noReset (withAgenda s rest))
  | transport act rest hf _ ht =>
    exact .change hf (ht ▸ change_transportAct act (withAgenda s rest))

end Sys2Proof.Machine
end

section
/-! The rules about every step: straps, outcomes, polls, and the invariant (10_state.md R13 to R17,
00_scope.md R9, 42_frame.md R109, 45_session.md R180). -/

namespace Sys2Proof.Machine

variable {s t : State}

/-! ### What the reset and a record leave -/

theorem resetBlock_eq (station : Byte) (dialect : Dialect) (s : State) :
    resetBlock station dialect s =
      { s with
        stationId := station, dialect := dialect, phase := .idle, rxbuf := [], framer := none,
        session := none } := rfl

@[simp] theorem terminated_nil (dialect : Dialect) : terminated dialect [] = false := by
  cases dialect <;> rfl

/-- A record leaves a framer with a record to come, or none. -/
theorem afterRecord_left {r : Result Framer} {f : Framer} (h : (afterRecord r s).framer = some f) :
    f.index < f.records := by
  cases r with
  | error e => cases h
  | ok f' =>
    rw [afterRecord_ok] at h
    split at h <;> cases h
    assumption

/-! ### Straps, outcomes and polls -/

/-- Settles O3: the reset is excluded, and neither a record nor any other event writes a strap. -/
theorem onlyResetChangesStraps : Obligations.OnlyResetChangesStraps := by
  intro s t h noReset
  cases step_change h with
  | reset station dialect rest hf ha => exact absurd ha (noReset station dialect rest hf)
  | record f hf ht =>
    obtain ⟨straps, -⟩ := afterRecord_frame (framerTurn Config.hw f) s
    exact ht ▸ straps
  | change hf h => exact ⟨h.station, h.dialect⟩

theorem Effect.outcomes (h : Effect s.view t.view) :
    t.completions = s.completions ∨ ∃ c, t.completions = s.completions ++ [c] := by
  cases h with
  | quiet _ _ same => exact .inl same
  | hands c _ _ more => exact .inr ⟨c, more⟩
  | engages _ _ _ _ _ _ same => exact .inl same
  | begins _ _ _ same => exact .inl same
  | grows _ _ _ _ same => exact .inl same
  | ends _ _ _ outcomes => exact outcomes

/-- Settles O60: each kind of step hands over one outcome at most. -/
theorem atMostOneCompletionPerStep : Obligations.AtMostOneCompletionPerStep := by
  intro s t h
  cases step_change h with
  | reset station dialect rest _ _ ht => exact .inl (ht ▸ rfl)
  | record f _ ht =>
    obtain ⟨-, -, -, -, outcomes⟩ := afterRecord_frame (framerTurn Config.hw f) s
    exact ht ▸ outcomes
  | change _ h => exact h.effect.outcomes

theorem pollsWithin_iff (session : Option Exchange) :
    PollsWithin session ↔
      ∀ stage target left, session = some ⟨stage, .setStatePoll target left⟩ →
        1 ≤ left ∧ left ≤ Config.hw.convergenceBound := by
  constructor
  · exact fun within stage target left h => within stage _ h
  · intro within stage k h
    cases k with
    | setStatePoll target left => exact within stage target left h
    | _ => trivial

theorem pollsWithin_none : PollsWithin none := nofun

theorem Effect.polls (h : Effect s.view t.view) (within : PollsWithin s.session) :
    PollsWithin t.session := by
  cases h with
  | quiet _ same =>
    rw [show t.session = s.session from same]
    exact within
  | hands _ _ session =>
    obtain same | gone := session
    · rw [show t.session = s.session from same]
      exact within
    · rw [show t.session = none from gone]
      exact pollsWithin_none
  | engages stage k _ _ polls session =>
    rw [show t.session = some ⟨stage, k⟩ from session]
    rintro _ _ ⟨⟩
    exact polls within
  | begins _ _ session =>
    obtain same | ⟨stage, k, hs, ht⟩ := session
    · rw [show t.session = s.session from same]
      exact within
    · rw [show t.session = some ⟨.waiting, k⟩ from ht]
      rintro _ _ ⟨⟩
      exact within stage k hs
  | grows _ _ _ same =>
    rw [show t.session = s.session from same]
    exact within
  | ends _ _ session =>
    intro stage k h
    obtain ⟨-, stage', hs⟩ := session stage k h
    exact within stage' k hs

/-- Settles O57: the reset leaves no exchange, a record leaves it alone, and an event keeps its
polls within the bound. -/
theorem pollsAreBounded : Obligations.PollsAreBounded := by
  intro s t h
  rw [← pollsWithin_iff, ← pollsWithin_iff]
  cases step_change h with
  | reset station dialect rest _ _ ht => exact fun _ => ht ▸ pollsWithin_none
  | record f _ ht =>
    obtain ⟨-, -, -, session, -⟩ := afterRecord_frame (framerTurn Config.hw f) s
    rw [ht, session]
    exact id
  | change _ h => exact h.effect.polls

/-! ### The invariant -/

/-- The part of the invariant about the receive in progress. -/
abbrev ReceiveInv (s : State) : Prop :=
  (s.phase = .idle → s.rxbuf = []) ∧ s.rxbuf.length ≤ Config.hw.rxbufMax ∧
    terminated s.dialect s.rxbuf = false

theorem receiveInv_same (inv : ReceiveInv s) (dialect : t.dialect = s.dialect)
    (same : SameReceive s.view t.view) : ReceiveInv t := by
  obtain ⟨phase, rxbuf⟩ := same
  rw [ReceiveInv, show t.phase = s.phase from phase, show t.rxbuf = s.rxbuf from rxbuf, dialect]
  exact inv

theorem receiveInv_empty (rxbuf : t.rxbuf = []) : ReceiveInv t := by
  rw [ReceiveInv, rxbuf]
  exact ⟨fun _ => rfl, Nat.zero_le _, terminated_nil _⟩

theorem Change.receiveInv (h : Change s.view t.view) (inv : ReceiveInv s) : ReceiveInv t := by
  cases h.effect with
  | quiet same => exact receiveInv_same inv h.dialect same
  | hands _ same => exact receiveInv_same inv h.dialect same
  | engages _ _ same => exact receiveInv_same inv h.dialect same
  | begins _ rxbuf => exact receiveInv_empty rxbuf
  | grows phase fits more =>
    exact ⟨fun idle => Phase.noConfusion (phase.symm.trans idle), fits, more⟩
  | ends _ rxbuf => exact receiveInv_empty rxbuf

theorem sessionInv_same (inv : SessionInv s) (phase : t.phase = s.phase)
    (session : t.session = s.session) : SessionInv t := fun k hk =>
  phase.trans (inv k (session.symm.trans hk))

theorem Effect.sessionInv (h : Effect s.view t.view) (inv : SessionInv s) : SessionInv t := by
  cases h with
  | quiet same session => exact sessionInv_same inv same.1 session
  | hands _ same session =>
    obtain session | gone := session
    · exact sessionInv_same inv same.1 session
    · exact fun k hk => absurd (gone.symm.trans hk) nofun
  | engages stage k _ acts _ session =>
    intro k' hk
    cases session.symm.trans hk
    exact absurd rfl acts
  | begins phase => exact fun _ _ => phase
  | grows phase => exact fun _ _ => phase
  | ends _ _ session => exact fun k hk => absurd rfl (session _ k hk).1

/-- With nothing received and nothing in progress there is nothing to go wrong. -/
theorem machineInv_cleared (rxbuf : s.rxbuf = []) (framer : s.framer = none)
    (session : s.session = none) : MachineInv s := by
  obtain ⟨empty, fits, more⟩ := receiveInv_empty rxbuf
  exact ⟨⟨empty, fits, more, by simp [framer]⟩, fun _ hk => absurd (session.symm.trans hk) nofun⟩

/-- Settles O58: after reset RXBUF is empty and nothing is in progress. -/
theorem invariantAtReset : Obligations.InvariantAtReset := fun _ _ =>
  machineInv_cleared rfl rfl rfl

/-- A record runs in IDLE and leaves a record to come or no LOG_DECODE. -/
theorem machineInv_afterRecord {f : Framer} (inv : MachineInv s) (hf : s.framer = some f)
    (r : Result Framer) : MachineInv (afterRecord r s) := by
  obtain ⟨⟨empty, fits, more, framer⟩, session⟩ := inv
  obtain ⟨⟨-, dialect⟩, phase, rxbuf, same, -⟩ := afterRecord_frame r s
  obtain ⟨empty', fits', more'⟩ :=
    receiveInv_same (t := afterRecord r s) ⟨empty, fits, more⟩ dialect ⟨phase, rxbuf⟩
  obtain ⟨idle, -⟩ := framer f hf
  exact ⟨⟨empty', fits', more', fun _ hf' => ⟨phase.trans idle, afterRecord_left hf'⟩⟩,
    sessionInv_same session phase same⟩

theorem machineInv_change (inv : MachineInv s) (hf : s.framer = none)
    (h : Change s.view t.view) : MachineInv t := by
  obtain ⟨⟨empty, fits, more, -⟩, session⟩ := inv
  obtain ⟨empty', fits', more'⟩ := h.receiveInv ⟨empty, fits, more⟩
  have none' : t.framer = none := h.framer.elim (·.trans hf) id
  exact ⟨⟨empty', fits', more', by simp [none']⟩, h.effect.sessionInv session⟩

/-- Settles O59: the reset establishes the invariant, a record and every other event keep it. -/
theorem stepKeepsInvariant : Obligations.StepKeepsInvariant := by
  intro s t inv h
  cases step_change h with
  | reset station dialect rest _ _ ht =>
    rw [ht, resetBlock_eq]
    exact machineInv_cleared rfl rfl rfl
  | record f hf ht => exact ht ▸ machineInv_afterRecord inv hf _
  | change hf h => exact machineInv_change inv hf h

end Sys2Proof.Machine
end

section
/-! RESP_DECODE reads its length and its words, and nothing else of a response
(43_response_decoder.md R130, R131, R134). -/

namespace Sys2Proof.Machine

/-- A read that stays inside the first part of a buffer is a read of that part. -/
theorem memReadFull_append_left {buf : List Byte} (after : List Byte) {off n : Nat}
    (fits : off + n ≤ buf.length) : memReadFull (buf ++ after) off n = memReadFull buf off n := by
  rw [memReadFull_ok fits, memReadFull_ok (by rw [List.length_append]; omega), slice, slice,
    List.take_append_of_le_length fits]

theorem readWords_append_right (before buf : List Byte) (n off : Nat) :
    readWords Config.hw (before ++ buf) n (before.length + off) =
      readWords Config.hw buf n off := by
  induction n generalizing off with
  | zero => rfl
  | succ n ih =>
    rw [readWords_cons, readWords_cons, memRead_hw, memRead_hw, memReadFull_append_right,
      Nat.add_assoc, ih]

theorem readWords_append_left {buf : List Byte} (after : List Byte) {n off : Nat}
    (fits : off + 4 * n ≤ buf.length) :
    readWords Config.hw (buf ++ after) n off = readWords Config.hw buf n off := by
  induction n generalizing off with
  | zero => rfl
  | succ n ih =>
    rw [readWords_cons, readWords_cons, memRead_hw, memRead_hw,
      memReadFull_append_left after (by omega), ih (by omega)]

theorem messageLength_field {header len : List Byte} (after : List Byte) (h4 : header.length = 4)
    (h2 : len.length = 2) :
    messageLength Config.hw (header ++ (len ++ after)) = .ok (beNat len / 4) := by
  have field : memReadFull (header ++ (len ++ after)) 4 2 = .ok (beNat len) :=
    calc memReadFull (header ++ (len ++ after)) 4 2
      _ = memReadFull (len ++ after) 0 2 := h4 ▸ memReadFull_append_right header (len ++ after) 0 2
      _ = memReadFull len 0 2 := memReadFull_append_left after h2.ge
      _ = .ok (beNat len) := by
        rw [memReadFull_ok h2.ge, slice_zero, List.take_of_length_le h2.le]
  rw [messageLength, memRead_hw, field]
  exact congrArg Except.ok (Nat.shiftRight_eq_div_pow _ 2)

/-- What RESP_DECODE makes of a response depends on the length field and the words alone. -/
theorem respDecode_words {header len words : List Byte} (tail : List Byte)
    (h4 : header.length = 4) (h2 : len.length = 2) (hw : words.length = 4 * (beNat len / 4)) :
    respDecode Config.hw (header ++ len ++ words ++ tail) =
      (readWords Config.hw words (beNat len / 4) 0).bind fun ws => .ok (ws.map sext32) := by
  have six : (header ++ len).length + 0 = 6 := by simp [h4, h2]
  have read : readWords Config.hw (header ++ len ++ (words ++ tail)) (beNat len / 4) 6 =
      readWords Config.hw words (beNat len / 4) 0 := by
    rw [← six, readWords_append_right, readWords_append_left tail (by omega)]
  have length : messageLength Config.hw (header ++ len ++ (words ++ tail)) =
      .ok (beNat len / 4) := by
    rw [List.append_assoc header]
    exact messageLength_field _ h4 h2
  rw [respDecode_eq, List.append_assoc (header ++ len), length, Except.bind, read]

/-- Settles O15: both responses have the length field and the words that RESP_DECODE reads. -/
theorem respDecodeIgnoresHeaderAndTail : Obligations.RespDecodeIgnoresHeaderAndTail := by
  intro header header' len words tail tail' s h4 h4' h2 hw
  have same : respDecode Config.hw (header ++ len ++ words ++ tail) =
      respDecode Config.hw (header' ++ len ++ words ++ tail') := by
    rw [respDecode_words tail h4 h2 hw, respDecode_words tail' h4' h2 hw]
  show execRespDecode _ s = execRespDecode _ s
  rw [execRespDecode, execRespDecode, same]

end Sys2Proof.Machine
end

section
/-! LOG_DECODE: its start, the whole algorithm in one step, and its records as steps of their own
(44_logged_data.md R140 to R159). -/

namespace Sys2Proof.Machine

variable {s : State} {response : List Byte}

/-! ### The start -/

theorem logStart_otherCommand (h : response[2]? ≠ some 7) :
    logStart Config.hw response = .ok none := if_neg h

theorem logStart_eq (h : response[2]? = some 7) :
    logStart Config.hw response = (messageLength Config.hw response).bind fun n =>
      (memReadFull (responseBody response) 12 4).bind fun fields =>
        .ok (some ⟨responseBody response, fields + 4, n / (fields + 4), 0, [], []⟩) := if_pos h

theorem responseBody_eq (response : List Byte) :
    responseBody response = (response.drop 6).take (response.length - 8) := List.drop_take

theorem logStart_short (h : response[2]? = some 7) (short : response.length < 24) :
    logStart Config.hw response = .error .decodeError := by
  rw [logStart_eq h]
  by_cases long : 6 ≤ response.length
  · rw [messageLength_ok long, Except.bind,
      memReadFull_short (by rw [responseBody, slice_length]; omega)]
    rfl
  · rw [messageLength_short (by omega)]
    rfl

theorem logStart_ok {n fields : Nat} (h : response[2]? = some 7) (long : 24 ≤ response.length)
    (hn : n = ((response.getD 4 0).toNat * 256 + (response.getD 5 0).toNat) / 4)
    (hfields : fields = beNat ((response.drop 18).take 4)) :
    logStart Config.hw response =
      .ok (some ⟨responseBody response, fields + 4, n / (fields + 4), 0, [], []⟩) := by
  have field : slice (responseBody response) 12 16 = (response.drop 18).take 4 := by
    rw [responseBody_eq, slice, List.take_take, min_eq_left (by omega), List.drop_take,
      List.drop_drop]
  rw [logStart_eq h, messageLength_ok (by omega), Except.bind,
    memReadFull_ok (by rw [responseBody, slice_length]; omega), field, ← hfields, ← hn]
  rfl

/-! ### The whole algorithm -/

/-- LOG_DECODE's end where none was in progress: an outcome and nothing else. -/
theorem endRecords_eq (r : Result (List LoggedRecord)) (hf : s.framer = none) :
    endRecords r s = { s with completions := s.completions ++ [.ofResult .records r] } := by
  show { s with framer := none, completions := s.completions ++ [_] } = _
  rw [← hf]

theorem logDecode_eq (response : List Byte) :
    logDecode Config.hw response = (logStart Config.hw response).bind fun start =>
      match start with
      | none => .ok []
      | some f => framerRun Config.hw f.records f := rfl

theorem execLogDecode_idle (response : List Byte) (idle : s.phase = .idle) :
    execLogDecode response s = .next (endRecords (logDecode Config.hw response) s) := by
  rw [execLogDecode, if_neg (Phase.ne_rxWait_iff.mpr idle), logDecode_eq]
  cases start : logStart Config.hw response with
  | error e => rfl
  | ok framer =>
    cases framer with
    | none => rfl
    | some f =>
      obtain ⟨index, out⟩ := logStart_index start
      by_cases empty : f.records = 0
      · simp [Except.bind, empty, framerRun, out]
      · have run := runRecords_eq (s := { s with framer := some f }) rfl
          (show f.index + f.records = f.records by omega) (by omega)
        simp only [Except.bind, if_neg empty, run]
        rfl

theorem exec_logDecode (response : List Byte) (idle : s.phase = .idle) (hf : s.framer = none) :
    exec (.logDecode response) s =
      .next { s with completions := s.completions ++
        [.ofResult .records (logDecode Config.hw response)] } := by
  show execLogDecode response s = _
  rw [execLogDecode_idle response idle, endRecords_eq _ hf]

/-- Settles O18: the records run to the end deliver what the framer's run delivers. -/
theorem logDecodeIsTheWholeAlgorithm : Obligations.LogDecodeIsTheWholeAlgorithm :=
  fun response _ idle hf => exec_logDecode response idle hf

/-- Settles O16: no framer, no field count, or a number of records that is rounded down to 0. -/
theorem logDecodeWithoutRecords : Obligations.LogDecodeWithoutRecords := by
  intro response s n fields idle hf hn hfields
  rw [exec_logDecode response idle hf, logDecode_eq]
  refine ⟨fun other => ?_, fun logged short => ?_, fun logged long few => ?_⟩
  · rw [logStart_otherCommand other]
    rfl
  · rw [logStart_short logged short]
    rfl
  · rw [logStart_ok logged long hn hfields, Except.bind, Nat.div_eq_of_lt few]
    rfl

/-! ### A header record first -/

theorem framerRun_succ (n : Nat) (f : Framer) :
    framerRun Config.hw (n + 1) f = (framerTurn Config.hw f).bind (framerRun Config.hw n) := rfl

/-- The first slice of a response has one byte fewer than its header record needs: four bytes for
each of the fields and the 16 before them, less the margin. -/
theorem framerTurn_headerFirst {fields records : Nat} {keys : List Word}
    {out : List LoggedRecord} {body : List Byte} (header : body[0]? = some 1)
    (hfields : fields = beNat ((body.drop 12).take 4)) :
    framerTurn Config.hw ⟨body, fields + 4, records, 0, keys, out⟩ = .error .decodeError := by
  obtain ⟨rest, rfl⟩ : ∃ rest, body = 1 :: rest := by
    cases body with
    | nil => cases header
    | cons b rest => exact ⟨rest, by rw [Option.some.inj header]⟩
  have window : (⟨1 :: rest, fields + 4, records, 0, keys, out⟩ : Framer).currentSlice Config.hw =
      1 :: rest.take (4 * fields + 14) := by
    have size : (0 + 1) * (4 * (fields + 4)) - 1 = 4 * fields + 14 + 1 := by omega
    show slice (1 :: rest) (0 * _) ((0 + 1) * (4 * (fields + 4)) - 1) = _
    rw [size, Nat.zero_mul]
    rfl
  have short : (rest.take (4 * fields + 14)).length ≤ 4 * fields + 14 := List.length_take_le ..
  rw [framerTurn_eq, window]
  refine headerRecord_short _ 1 ?_
  by_cases none' : fields = 0
  · left
    omega
  · right
    have count : ((rest.take (4 * fields + 14)).drop 11).take 4 = ((1 :: rest).drop 12).take 4 := by
      rw [List.drop_take, List.take_take, min_eq_left (by omega)]
      rfl
    rw [count, ← hfields]
    omega

/-- Settles O17: LENGTH announces a record, so the first turn is made, and it fails. -/
theorem logDecodeHeaderFirstFails : Obligations.LogDecodeHeaderFirstFails := by
  intro response s n fields idle hf logged long hn hfields announced header
  have first : (responseBody response)[0]? = some 1 := by
    rw [responseBody_eq, List.getElem?_take_of_lt (by omega), List.getElem?_drop]
    exact header
  have count : fields = beNat (((responseBody response).drop 12).take 4) := by
    rw [responseBody_eq, List.drop_take, List.take_take, min_eq_left (by omega), List.drop_drop]
    exact hfields
  obtain ⟨others, some'⟩ := Nat.exists_eq_add_one.mpr (Nat.div_pos announced (Nat.succ_pos _))
  rw [exec_logDecode response idle hf, logDecode_eq, logStart_ok logged long hn hfields]
  simp only [Except.bind]
  rw [some', framerRun_succ, framerTurn_headerFirst first count]
  rfl

/-! ### Its records as steps -/

/-- The records LOG_DECODE executes in its one step are that many steps, or fewer. -/
theorem steps_eq_runRecords (n : Nat) (s : State) : ∃ k ≤ n, steps k s = runRecords n s := by
  induction n generalizing s with
  | zero => exact ⟨0, le_rfl, rfl⟩
  | succ n ih =>
    cases hf : s.framer with
    | none => exact ⟨0, Nat.zero_le _, by rw [runRecords, hf]; rfl⟩
    | some f =>
      obtain ⟨k, le, rest⟩ := ih (afterRecord (framerTurn Config.hw f) s)
      refine ⟨k + 1, Nat.succ_le_succ le, ?_⟩
      rw [steps, step_record hf, runRecords, hf]
      simp only [recordTurn_framer hf]
      exact rest

/-- Settles O19: the framer written out is the one LOG_DECODE starts with, and it has a record. -/
theorem logDecodeRefinedByRecordSteps : Obligations.LogDecodeRefinedByRecordSteps := by
  intro response s n fields f idle hf logged long hn hfields announced first
  have records : f.records ≠ 0 := by
    rw [first]
    exact (Nat.div_pos announced (Nat.succ_pos _)).ne'
  have run : exec (.logDecode response) s = runRecords f.records { s with framer := some f } := by
    show execLogDecode response s = _
    rw [execLogDecode, if_neg (Phase.ne_rxWait_iff.mpr idle), logStart_ok logged long hn hfields,
      responseBody_eq, ← first]
    exact if_neg records
  rw [run]
  exact steps_eq_runRecords _ _

end Sys2Proof.Machine
end

section
/-! Records that fail, and records decoded by themselves (44_logged_data.md R148 to R150, R155). -/

namespace Sys2Proof.Machine

variable {s : State} {f : Framer}

/-! ### A data record by its fields -/

theorem readPairs_append_right (before slots : List Byte) (keys : List Word) (off : Nat) :
    readPairs (before ++ slots) keys (before.length + off) = readPairs slots keys off := by
  induction keys generalizing off with
  | nil => rfl
  | cons key keys ih =>
    rw [readPairs_cons, readPairs_cons, fieldValue_append_right, Nat.add_assoc, ih]

/-- After its three fixed words a data record is its timestamp and its pairs. -/
theorem dataRecord_fields (f : Framer) (type : Byte) {fixed : List Byte} (slots : List Byte)
    (raw interval n : Word) (hfixed : fixed.length = 3) :
    dataRecord Config.hw f
        (type :: (fixed ++ be32 raw ++ be32 interval ++ be32 n ++ slots)) =
      (tsDecode raw).bind fun ts => (readPairs slots (f.keys.take n.toNat) 0).bind fun pairs =>
        .ok { f with out := f.out ++ [⟨pairs, ts, interval⟩], index := f.index + 1 } := by
  have rawField := memReadFull_field (type :: fixed) (be32 interval ++ (be32 n ++ slots)) raw
    (off := 4) (by simp [hfixed])
  have intervalField := memReadFull_field (type :: fixed ++ be32 raw) (be32 n ++ slots) interval
    (off := 8) (by simp [hfixed])
  have countField := memReadFull_field (type :: fixed ++ be32 raw ++ be32 interval) slots n
    (off := 12) (by simp [hfixed])
  have slotFields := readPairs_append_right
    (type :: fixed ++ be32 raw ++ be32 interval ++ be32 n) slots (f.keys.take n.toNat) 0
  rw [show (type :: fixed ++ be32 raw ++ be32 interval ++ be32 n).length + 0 = 16 by
    simp [hfixed]] at slotFields
  simp only [List.cons_append, List.append_assoc] at rawField intervalField countField slotFields
  simp only [List.append_assoc, dataRecord_eq, rawField, intervalField, countField, slotFields,
    Except.bind, BitVec.ofNat_toNat, BitVec.setWidth_eq]

/-! ### Failures -/

theorem dataRecord_short (f : Framer) (type : Byte) {rest : List Byte} (short : rest.length < 15) :
    dataRecord Config.hw f (type :: rest) = .error .decodeError := by
  rw [dataRecord_eq, memReadFull_short (by rw [List.length_cons]; omega)]
  rfl

theorem fieldValue_short {slots : List Byte} {key : Word} {off : Nat} (above : 1000 < key.toNat)
    (short : slots.length < off + 4) : fieldValue slots key off = .error .decodeError := by
  rw [fieldValue_float slots off above, memReadFull_short short]
  rfl

/-- A slot that is read is there, or its read fails. -/
theorem fieldValue_ok_or_decodeError (slots : List Byte) (key : Word) (off : Nat) :
    (∃ v, fieldValue slots key off = .ok v) ∨ fieldValue slots key off = .error .decodeError := by
  by_cases short : 1000 < key.toNat ∧ slots.length < off + 4
  · exact .inr (fieldValue_short short.1 short.2)
  · exact .inl ⟨_, fieldValue_ok fun above => Nat.le_of_not_lt fun h => short ⟨above, h⟩⟩

/-- One slot that is read and is not there fails all pairs (R150). -/
theorem readPairs_short {slots : List Byte} {keys : List Word} {off k : Nat} {key : Word}
    (hkey : keys[k]? = some key) (above : 1000 < key.toNat)
    (short : slots.length < off + 4 * k + 4) :
    readPairs slots keys off = .error .decodeError := by
  induction keys generalizing off k with
  | nil => cases hkey
  | cons first keys ih =>
    rw [readPairs_cons]
    obtain ⟨v, there⟩ | missing := fieldValue_ok_or_decodeError slots first off
    · cases k with
      | zero =>
        obtain rfl : first = key := Option.some.inj hkey
        rw [fieldValue_short above short]
        rfl
      | succ k =>
        rw [there, Except.bind, ih hkey (by omega)]
        rfl
    · rw [missing]
      rfl

theorem tsDecode_ok_or_decodeError (raw : Word) :
    (∃ t, tsDecode raw = .ok t) ∨ tsDecode raw = .error .decodeError := by
  unfold tsDecode
  split
  · exact .inl ⟨_, rfl⟩
  · exact .inr rfl

/-- Settles O35: the count, the timestamp or a slot fails the record, and a failed record hands
over its error alone. -/
theorem dataRecordFailures : Obligations.DataRecordFailures := by
  constructor
  · intro s f rest hs short
    rw [exec_recData rest hs, dataRecord_short f _ short, afterRecord_error]
  · intro s f fixed slots raw interval n hs hfixed failure
    have failed : dataRecord Config.hw f (Config.recTypeData ::
        (fixed ++ be32 raw ++ be32 interval ++ be32 n ++ slots)) = .error .decodeError := by
      rw [dataRecord_fields f _ slots raw interval n hfixed]
      obtain ⟨t, valid⟩ | invalid := tsDecode_ok_or_decodeError raw
      · obtain invalid | ⟨k, key, hkey, above, short⟩ := failure
        · cases valid.symm.trans invalid
        · rw [valid, Except.bind, readPairs_short hkey above (by omega)]
          rfl
      · rw [invalid]
        rfl
    rw [exec_recData _ hs, failed, afterRecord_error]

/-! ### A record by itself -/

theorem exec_recHeader_solo (rest : List Byte) (hf : s.framer = none) :
    exec (.recHeader rest) s = acceptIdle s
      (afterRecord (headerRecord Config.hw .solo (Config.recTypeHeader :: rest)) s) := by
  show execRecHeader rest s = _
  rw [execRecHeader, runRecord, hf]

theorem exec_recData_solo (rest : List Byte) (hf : s.framer = none) :
    exec (.recData rest) s = acceptIdle s
      (afterRecord (dataRecord Config.hw .solo (Config.recTypeData :: rest)) s) := by
  show execRecData rest s = _
  rw [execRecData, runRecord, hf]

/-- The last record of a LOG_DECODE hands over what was put out. -/
theorem afterRecord_last (last : ¬ f.index < f.records) :
    afterRecord (.ok f) s = endRecords (.ok f.out) s := if_neg last

/-- Settles O36: the framer of a record by itself has one record and no keys. -/
theorem recordByItself : Obligations.RecordByItself := by
  refine ⟨fun s rest hf waits => ⟨?_, ?_⟩, fun s fixed tail n ids hf idle hfixed count => ?_,
    fun s fixed slots raw interval n t hf idle hfixed valid => ?_⟩
  · rw [exec_recHeader_solo rest hf, acceptIdle_rxWait _ waits]
    rfl
  · rw [exec_recData_solo rest hf, acceptIdle_rxWait _ waits]
    rfl
  · rw [exec_recHeader_solo _ hf, acceptIdle_idle _ idle,
      headerRecord_ok _ _ tail hfixed count, afterRecord_last (by decide : ¬ 0 + 1 < 1),
      endRecords_eq _ hf]
    rfl
  · rw [exec_recData_solo _ hf, acceptIdle_idle _ idle,
      dataRecord_fields _ _ slots raw interval n hfixed, valid]
    simp only [Except.bind, Framer.solo, List.take_nil, readPairs]
    rw [afterRecord_last (by decide : ¬ 0 + 1 < 1), endRecords_eq _ hf]
    rfl

/-! ### The slice of a record -/

/-- Settles O38: the window of the index, less the margin of one byte. -/
theorem recordSliceIsOneByteShort : Obligations.RecordSliceIsOneByteShort := by
  intro f before window after last body start size
  show slice f.body (f.index * (4 * f.itemsPerRecord))
    ((f.index + 1) * (4 * f.itemsPerRecord) - 1) = window
  rw [body, List.append_assoc (before ++ window)]
  refine slice_middle before window _ start.symm ?_
  rw [Nat.add_mul, ← start]
  omega

end Sys2Proof.Machine
end

section
/-! Every instruction in every state: what the operations hand over, and that none stops
(20_memory.md R40, 42_frame.md R104, R113, 60_exceptions.md R200). -/

namespace Sys2Proof.Machine

/-- An operation that completes hands over Ok or Err, never Refused. -/
theorem ofResult_ne_refused {α : Type} (wrap : α → Value) (r : Result α) :
    Completion.ofResult wrap r ≠ .refused := by
  cases r <;> exact Completion.noConfusion

/-- Settles O21: each operation is pureOp of a completion made of its operands, and so is
LOG_DECODE's outcome. -/
theorem pureOperationsDependOnOperands : Obligations.PureOperationsDependOnOperands := by
  constructor
  · intro i hi
    cases i with
    | checksum bytes => exact ⟨_, Completion.noConfusion, fun s idle _ => pureOp_idle _ idle⟩
    | tsDecode raw => exact ⟨_, ofResult_ne_refused _ _, fun s idle _ => exec_tsDecode raw idle⟩
    | tsEncode t => exact ⟨_, ofResult_ne_refused _ _, fun s idle _ => exec_tsEncode t idle⟩
    | frameValidate bytes =>
      exact ⟨_, ofResult_ne_refused _ _, fun s idle _ => exec_frameValidate bytes idle⟩
    | respDecode response =>
      exact ⟨_, ofResult_ne_refused _ _, fun s idle _ => exec_respDecode response idle⟩
    | logDecode response =>
      exact ⟨_, ofResult_ne_refused _ _, fun s idle hf => exec_logDecode response idle hf⟩
    | _ => cases hi
  · intro command parameterId payload station
    refine ⟨.ofResult .bytes (frameBuild station command parameterId payload),
      ofResult_ne_refused _ _, fun s idle hs => ?_⟩
    rw [exec_frameBuild command parameterId payload idle, hs]

theorem acceptIdle_next (s next : State) : ∃ t, acceptIdle s next = .next t := by
  obtain ⟨-, refused⟩ | ⟨-, made⟩ := acceptIdle_cases (s := s) next
  · exact ⟨_, refused⟩
  · exact ⟨_, made⟩

theorem runRecord_next (turn : Framer → Result Framer) (s : State) :
    ∃ t, runRecord turn s = .next t := by
  unfold runRecord
  split
  · exact ⟨_, rfl⟩
  · exact acceptIdle_next s _

/-- Settles O24: an operation and a record are refused or made, LOG_DECODE comes to its end, and a
wire command answers in all its cases. -/
theorem noInstructionStops : Obligations.NoInstructionStops := by
  intro i s
  cases i with
  | checksum | tsDecode | tsEncode | frameBuild | frameRx | frameValidate | respDecode =>
    exact acceptIdle_next s _
  | logDecode response =>
    obtain ⟨-, refused⟩ | ⟨-, _, decoded⟩ := execLogDecode_cases response s
    · exact ⟨_, refused⟩
    · exact ⟨_, decoded⟩
  | recHeader | recData => exact runRecord_next _ s
  | getId | getValues | setValue | getLogConfig | getLoggedData | legacyId | legacyVi =>
    exact ⟨_, rfl⟩

/-- Settles O20: the issue is accepted in IDLE. -/
theorem frameRxBeginsReceive : Obligations.FrameRxBeginsReceive := fun _ idle =>
  acceptIdle_idle _ idle

/-- Settles O23: the eight rows by their code, the rest by decode_op_cases. -/
theorem opselSelectsOperation : Obligations.OpselSelectsOperation := by
  refine fun o => ⟨rfl, rfl, rfl, rfl, rfl, rfl, rfl, rfl, fun opsel reserved => ?_⟩
  obtain ⟨-, rejected⟩ | ⟨small, -⟩ := decode_op_cases opsel o
  · exact rejected
  · omega

/-- Settles O42: each word is laid out and decoded. -/
theorem tableWordsDecode : Obligations.TableWordsDecode :=
  ⟨rfl, rfl, rfl, rfl, rfl, rfl, rfl, rfl⟩

end Sys2Proof.Machine
end

section
/-! A step runs what is presented; the reset; the transport's events in IDLE and in RX_WAIT
(00_scope.md R8, 42_frame.md R105 to R110, 60_exceptions.md R210, 70_reset_and_hazards.md R230). -/

namespace Sys2Proof.Machine

variable {s : State}

/-! ### What is presented, and the reset -/

/-- Settles O39: the event is taken and its instruction executed, or the record of the LOG_DECODE in
progress. -/
theorem stepRunsDecodedInstruction : Obligations.StepRunsDecodedInstruction := by
  refine ⟨fun s opsel operands rest i hf ha decoded => ?_, fun s bytes rest i hf ha decoded => ?_,
    fun s bytes rest why hf ha rejected => ?_, fun s f i hs decoded => ?_⟩
  · rw [step_event hf ha, eventStep, issueStep, decoded]
    rfl
  · rw [step_event hf ha, eventStep, commandStep, decoded]
    rfl
  · rw [step_event hf ha, eventStep, commandStep, rejected]
  · rw [step_record hs, recordTurn_eq, decoded]

/-- Settles O2: no LOG_DECODE is in progress when an event is taken, and the reset leaves none. -/
theorem resetEventAbandonsReceive : Obligations.ResetEventAbandonsReceive := by
  intro s station dialect rest hf ha
  have taken : step s = .next (resetBlock station dialect (withAgenda s rest)) := step_event hf ha
  rw [taken, resetBlock_eq, ← hf]
  rfl

/-! ### The steps of an exchange, one for each stage -/

section
variable {rest : List Event} {k : Await} (host : HostIsNext s rest)
include host

theorem step_encodeStart {start stop : DateTime}
    (hx : s.session = some ⟨.encodeStart start stop, k⟩) :
    step s = .next (afterOperation (tsEncode start) (.encodeStop · stop) k (withAgenda s rest)) :=
  step_exchange host hx

theorem step_encodeStop {first : List Byte} {stop : DateTime}
    (hx : s.session = some ⟨.encodeStop first stop, k⟩) :
    step s = .next (afterOperation (tsEncode stop)
      (fun last => .build Config.cmdGetLoggedData 0 (first ++ last)) k (withAgenda s rest)) :=
  step_exchange host hx

theorem step_build {command : Byte} {parameterId : Word} {payload : List Byte}
    (hx : s.session = some ⟨.build command parameterId payload, k⟩) :
    step s = .next (afterOperation (frameBuild s.stationId command parameterId payload) .send k
      (withAgenda s rest)) := step_exchange host hx

theorem step_send {request : List Byte} (hx : s.session = some ⟨.send request, k⟩) :
    step s = .next (exchangeSend request k (withAgenda s rest)) := step_exchange host hx

theorem step_receive (hx : s.session = some ⟨.receive, k⟩) :
    step s = .next (engage .waiting k (beginReceive (withAgenda s rest))) := step_exchange host hx

theorem step_validate {response : List Byte} (hx : s.session = some ⟨.validate response, k⟩) :
    step s = .next (afterOperation (frameValidate response) (fun _ => .decode response) k
      (withAgenda s rest)) := step_exchange host hx

theorem step_decode {response : List Byte} (hx : s.session = some ⟨.decode response, k⟩) :
    step s = .next (resume k response (disengage (withAgenda s rest))) := step_exchange host hx

end

/-! ### The end of a connection -/

/-- The receive ends with ConnectionError, and no connection stands. -/
theorem onDisconnect_eq (s : State) :
    onDisconnect s =
      { s with
        phase := .idle, rxbuf := [], link := .closed, session := afterFailedReceive s.session,
        completions := s.completions ++ [.err .connectionError] } :=
  finishReceive_error .connectionError { s with link := .closed }

/-- A read of no bytes is a Disconnect (R108). -/
theorem deliverChunk_empty {size : Nat} (waits : s.phase = .rxWait)
    (nothing : s.residue.take size = []) : deliverChunk size s = onDisconnect s := by
  rw [deliverChunk, if_pos waits, nothing]

/-- The three events that end a receive with ConnectionError. -/
theorem eventStep_disconnect {e : Event} (waits : s.phase = .rxWait)
    (h : e = .transport .disconnect ∨ e = .host .closeLink ∨
      ∃ size, e = .transport (.chunk size) ∧ s.residue.take size = []) :
    eventStep e s = .next (onDisconnect s) := by
  obtain rfl | rfl | ⟨size, rfl, nothing⟩ := h
  · exact congrArg _ (if_pos waits)
  · exact congrArg _ (if_pos waits)
  · exact congrArg _ (deliverChunk_empty waits nothing)

/-- Settles O29: each of the three is the same end of the receive. -/
theorem disconnectIsConnectionError : Obligations.DisconnectIsConnectionError := by
  intro s e rest hf ha waits h
  rw [step_event hf ha, eventStep_disconnect (s := withAgenda s rest) waits h, onDisconnect_eq]
  rfl

theorem step_quiet (hf : s.framer = none) (ha : s.agenda = []) :
    step s = .next (quietTurn s) := by
  rw [step, hf, ha]

theorem quietTurn_rxWait (waits : s.phase = .rxWait) : quietTurn s = transportTurn s := by
  rw [quietTurn, waits]

/-- A transport that meets a dropped connection with nothing left to receive. -/
theorem transportTurn_dropped (waits : s.phase = .rxWait) (dropped : s.link = .dropped)
    (nothing : s.residue = []) : transportTurn s = onDisconnect s :=
  if_pos ⟨waits, dropped, nothing⟩

theorem not_canSend_dropped (dropped : s.link = .dropped) : ¬ CanSend s := by
  simp [CanSend, dropped]

/-- Settles O31: in IDLE the disconnect is a mark on the connection, and a send or a receive that
meets it fails. -/
theorem droppedConnectionIsMet : Obligations.DroppedConnectionIsMet := by
  refine ⟨fun s rest hf ha idle opened => ?_, fun s bytes rest hf ha dropped => ?_,
    fun s request k rest host hx dropped => ?_, fun s hf ha waits dropped nothing => ?_⟩
  · rw [step_transport hf ha, transportAct, withAgenda_phase, idle, if_neg Phase.noConfusion,
      withAgenda_link, opened, if_pos rfl, ← idle]
    rfl
  · have taken : step s = .next (hostSend bytes (withAgenda s rest)) := step_event hf ha
    rw [taken, hostSend, transmit, withAgenda_link, dropped]
    rfl
  · rw [step_send host hx, exchangeSend_fails (s := withAgenda s rest) _ _
      (not_canSend_dropped dropped)]
    rfl
  · rw [step_quiet hf ha, quietTurn_rxWait waits, transportTurn_dropped waits dropped nothing,
      onDisconnect_eq]
    rfl

/-! ### The transport in IDLE -/

/-- The bytes an event adds to what the transport holds. -/
def arrived (link : Link) : TransportAct → List Byte
  | .arrive bytes => if link = .opened then bytes else []
  | _ => []

/-- In IDLE an event of the transport stays in the transport. -/
theorem transportAct_idle (act : TransportAct) (idle : s.phase = .idle) :
    ∃ link reachable, transportAct act s =
      { s with
        link := link, reachable := reachable, residue := s.residue ++ arrived s.link act } := by
  have notWaiting : ¬ s.phase = .rxWait := Phase.ne_rxWait_iff.mpr idle
  have unchanged : s = { s with residue := s.residue ++ [] } := by rw [List.append_nil]
  cases act with
  | arrive bytes =>
    refine ⟨s.link, s.reachable, ?_⟩
    dsimp only [transportAct, arrived]
    split
    · rfl
    · exact unchanged
  | chunk size => exact ⟨s.link, s.reachable, (if_neg notWaiting).trans unchanged⟩
  | timeout => exact ⟨s.link, s.reachable, (if_neg notWaiting).trans unchanged⟩
  | disconnect =>
    refine ⟨if s.link = .opened then .dropped else s.link, s.reachable, ?_⟩
    dsimp only [transportAct, arrived]
    rw [if_neg notWaiting, List.append_nil]
    split <;> rfl
  | setReachable on =>
    refine ⟨s.link, on, ?_⟩
    dsimp only [transportAct, arrived]
    rw [List.append_nil]

/-- Settles O30: the event changes the transport's own fields alone. -/
theorem idleConsumesNoTransportEvent : Obligations.IdleConsumesNoTransportEvent := by
  intro s t act rest hf ha idle h
  obtain ⟨link, reachable, stays⟩ := transportAct_idle (s := withAgenda s rest) act idle
  rw [step_transport hf ha, stays] at h
  cases h
  exact ⟨idle, rfl, ⟨rfl, rfl⟩, hf, rfl, rfl, rfl, rfl, by cases act <;> rfl⟩

/-! ### The response of an exchange -/

/-- A receive that an exchange waits for gives it the bytes. -/
theorem finishReceive_ok_exchange {k : Await} (bytes : List Byte)
    (waiting : s.session = some ⟨.waiting, k⟩) :
    finishReceive (.ok bytes) s =
      { s with phase := .idle, rxbuf := [], session := some ⟨responseStage s bytes, k⟩ } :=
  finishReceive_exchange _ waiting

/-- A chunk that brings the terminator completes the receive of an exchange. -/
theorem step_chunk_response {size : Nat} {rest : List Event} {chunk : List Byte} {k : Await}
    (hf : s.framer = none) (ha : s.agenda = .transport (.chunk size) :: rest)
    (waits : s.phase = .rxWait) (hchunk : chunk = s.residue.take size) (nonempty : chunk ≠ [])
    (fits : s.rxbuf.length + chunk.length ≤ Config.hw.rxbufMax)
    (done : terminated s.dialect (s.rxbuf ++ chunk) = true)
    (waiting : s.session = some ⟨.waiting, k⟩) :
    step s = .next { s with
      agenda := rest, residue := s.residue.drop size, phase := .idle, rxbuf := [],
      session := some
        ⟨responseStage s (delivered Config.hw s.dialect (s.rxbuf ++ chunk)), k⟩ } := by
  rw [step_chunk hf ha waits hchunk nonempty,
    onChunk_terminated (s := chunkTaken size (withAgenda s rest)) fits done,
    finishReceive_ok_exchange (s := chunkTaken size (withAgenda s rest)) _ waiting]
  rfl

theorem responseStage_cases (s : State) (response : List Byte) :
    responseStage s response = .validate response ∨
      responseStage s response = .decode response := by
  unfold responseStage
  split
  · exact .inl rfl
  · exact .inr rfl

/-- Settles O32: the chunk moves from the transport to the buffer, and the buffer to whoever
receives it. -/
theorem streamKeepsEveryByteInOrder : Obligations.StreamKeepsEveryByteInOrder := by
  intro s t size rest hf ha waits binary nonempty fits h
  have stream : (s.rxbuf ++ s.residue.take size) ++ s.residue.drop size = s.rxbuf ++ s.residue := by
    rw [List.append_assoc, List.take_append_drop]
  have whole : delivered Config.hw s.dialect (s.rxbuf ++ s.residue.take size) =
      s.rxbuf ++ s.residue.take size := by rw [binary]; rfl
  by_cases done : terminated s.dialect (s.rxbuf ++ s.residue.take size) = true
  · right
    by_cases waiting : ∃ k, s.session = some ⟨.waiting, k⟩
    · obtain ⟨k, waiting⟩ := waiting
      rw [step_chunk_response hf ha waits rfl nonempty fits done waiting, whole] at h
      cases h
      refine ⟨_, rfl, stream, .inr ⟨k, ?_⟩⟩
      obtain validate | decode := responseStage_cases s (s.rxbuf ++ s.residue.take size)
      · exact .inl (by rw [validate])
      · exact .inr (by rw [decode])
    · have host : ∀ k, s.session ≠ some ⟨.waiting, k⟩ := not_exists.mp waiting
      rw [step_chunk_terminated hf ha waits rfl nonempty fits done host, whole] at h
      cases h
      exact ⟨_, rfl, stream, .inl rfl⟩
  · left
    rw [step_chunk_goesOn hf ha waits rfl nonempty fits done] at h
    cases h
    exact ⟨waits, rfl, rfl, stream⟩

end Sys2Proof.Machine
end

section
/-! Wire commands and legacy lines: what they send and where they are turned away
(30_encoding.md R61, 45_session.md R181 to R183, 70_reset_and_hazards.md R242). -/

namespace Sys2Proof.Machine

variable {s : State} {dialect : Dialect} {request : Result (List Byte)} {k : Await}

/-! ### The request of a wire command -/

theorem wireExchange_busy (busy : Busy s) :
    wireExchange dialect request k s =
      .next { s with completions := s.completions ++ [.refused] } :=
  congrArg _ (if_pos busy)

theorem not_busy (idle : s.phase = .idle) (free : s.session = none) : ¬ Busy s := by
  simp [Busy, idle, free]

section
variable (idle : s.phase = .idle) (free : s.session = none)
include idle free

theorem wireExchange_otherDialect (other : s.dialect ≠ dialect) :
    wireExchange dialect request k s =
      .next { s with completions := s.completions ++ [.err .unsupportedOperation] } :=
  congrArg _ ((if_neg (not_busy idle free)).trans (if_neg other))

theorem wireExchange_request (same : s.dialect = dialect) (bytes : List Byte) :
    wireExchange dialect (.ok bytes) k s = .next (exchangeSend bytes k s) := by
  rw [wireExchange, if_neg (not_busy idle free), if_pos same]

theorem wireExchange_error (same : s.dialect = dialect) (e : Err) :
    wireExchange dialect (.error e) k s =
      .next { s with completions := s.completions ++ [.err e] } := by
  rw [wireExchange, if_neg (not_busy idle free), if_pos same]
  rfl

/-- The request goes out over a connection that stands or is opened for it. -/
theorem wireExchange_sends (same : s.dialect = dialect) (link : CanSend s) (bytes : List Byte) :
    wireExchange dialect (.ok bytes) k s = .next { s with
      link := .opened, residue := if s.link = .opened then s.residue else [],
      sent := s.sent ++ bytes, session := some ⟨.receive, k⟩ } := by
  rw [wireExchange_request idle free same, exchangeSend_sends bytes k link]
  rfl

theorem wireExchange_noLink (same : s.dialect = dialect) (noLink : ¬ CanSend s)
    (bytes : List Byte) :
    wireExchange dialect (.ok bytes) k s = .next { s with
      link := .closed, completions := s.completions ++ [.err .connectionError] } := by
  rw [wireExchange_request idle free same, exchangeSend_fails bytes k noLink]
  show Host.Outcome.next { s with link := .closed, session := none, completions := _ } = _
  rw [← free]
  rfl

end

/-! ### Frames -/

/-- A request without a parameter id is the frame of its payload, if that fits LENGTH. -/
theorem frameBuild_payload (station command : Byte) {payload : List Byte}
    (fits : payload.length ≤ 65535) :
    frameBuild station command 0 payload = .ok (frameBytes station command payload) :=
  frameBuild_ok_iff.mpr ⟨fits, rfl⟩

theorem frameBuild_payload_long (station command : Byte) {payload : List Byte}
    (long : 65535 < payload.length) : frameBuild station command 0 payload = .error .rangeError :=
  if_pos long

/-- The checksum of a frame without data: its two zero bytes of LENGTH do not count. -/
theorem frameBytes_empty (station command : Byte) :
    frameBytes station command [] =
      [0x02, station, command, 0x03, 0, 0, 2 ^^^ station ^^^ command ^^^ 3, 0x04] := by
  have sum : xorAll [0x02, station, command, 0x03, 0, 0] = 2 ^^^ station ^^^ command ^^^ 3 := by
    simp [BitVec.xor_assoc]
  rw [← sum]
  rfl

theorem frameBytes_of_head {station command : Byte} {msgData head : List Byte}
    (h : head = frameHead station command msgData) :
    frameBytes station command msgData = head ++ [xorAll head, 0x04] := by
  rw [h]
  rfl

/-- The head of a request of two words, whose LENGTH is 8. -/
theorem frameHead_two_words (station command : Byte) (a b : Word) :
    frameHead station command (be32s [a, b]) =
      [0x02, station, command, 0x03, 0, 8] ++ be32 a ++ be32 b := by
  simp [frameHead, be16, Config.stx, Config.etx]

/-- Settles O43: each command sends the frame of its msg_data, which is written out. -/
theorem wireCommandsSendTheirFrame : Obligations.WireCommandsSendTheirFrame := by
  intro s station idle free binary link after hafter
  have sends (bytes : List Byte) (k : Await) :
      wireExchange .binary (.ok bytes) k s = .next (after bytes k) := by
    rw [hafter, wireExchange_sends idle free binary link]
  refine ⟨?_, ?_, fun id value head hhead => ?_, fun start stop head hhead => ?_,
    fun ids head fits hhead => ?_⟩
  · rw [exec_getId, frameBuild_payload _ _ (by decide), sends, frameBytes_empty]
    rfl
  · rw [exec_getLogConfig, frameBuild_payload _ _ (by decide), sends, frameBytes_empty]
    rfl
  · rw [exec_setValue, frameBuild_payload _ _ (by simp), sends,
      frameBytes_of_head (command := Config.cmdSetValue)
        (hhead.trans (frameHead_two_words ..).symm)]
  · rw [exec_getLoggedData, frameBuild_payload _ _ (by simp), sends,
      frameBytes_of_head (command := Config.cmdGetLoggedData)
        (hhead.trans (frameHead_two_words ..).symm)]
  · have isHead : head = frameHead station Config.cmdGetValues (be32s ids) := by
      rw [frameHead, be32s_length]
      exact hhead
    rw [exec_getValues, frameBuild_payload _ _ (by rwa [be32s_length]), sends,
      frameBytes_of_head isHead]

/-! ### Lines -/

/-- A VI line, byte by byte (R183). -/
theorem viLine_eq (text : List Byte) {tens units : Nat} (ht : tens < 10) (hu : units < 10) :
    viLine text (10 * tens + units) = [0x56, 0x49] ++ text ++
      [BitVec.ofNat 8 (0x30 + tens), BitVec.ofNat 8 (0x30 + units), 0x0D] := by
  rw [viLine, legacyLine, twoDigits_eq ht hu]
  simp [Config.legacyViText, Config.cr]

/-- Settles O44: each line is sent as it is. -/
theorem legacyLinesAreSent : Obligations.LegacyLinesAreSent := by
  intro s text idle free legacy link after hafter
  have sends (bytes : List Byte) :
      wireExchange .legacy (.ok bytes) .text s = .next (after bytes) := by
    rw [hafter, wireExchange_sends idle free legacy link]
  refine ⟨?_, fun tens units ht hu => ?_⟩
  · rw [exec_legacyId, sends]
    rfl
  · rw [exec_legacyVi, sends, viLine_eq text ht hu]

/-! ### Where they are turned away -/

/-- A wire command of a dialect, and whether its request can be built. -/
theorem exec_wire {i : Instr}
    (h : (dialect = .binary ∧ (i matches .getId _ | .getValues _ _ | .setValue _ _ _
        | .getLogConfig _ | .getLoggedData _ _ _)) ∨
      (dialect = .legacy ∧ (i matches .legacyId _ | .legacyVi _ _))) :
    ∃ request k, (∀ s, exec i s = wireExchange dialect request k s) ∧
      (i.wf = true → ∃ bytes, request = .ok bytes) := by
  obtain ⟨rfl, wire⟩ | ⟨rfl, line⟩ := h
  · cases i with
    | getId station =>
      exact ⟨_, _, fun s => exec_getId s station, fun _ => ⟨_, frameBuild_payload _ _ (by decide)⟩⟩
    | getValues station ids =>
      refine ⟨_, _, fun s => exec_getValues s station ids, fun wf => ⟨_, frameBuild_payload _ _ ?_⟩⟩
      rw [be32s_length]
      exact of_decide_eq_true wf
    | setValue station id value =>
      exact ⟨_, _, fun s => exec_setValue s station id value,
        fun _ => ⟨_, frameBuild_payload _ _ (by simp)⟩⟩
    | getLogConfig station =>
      exact ⟨_, _, fun s => exec_getLogConfig s station,
        fun _ => ⟨_, frameBuild_payload _ _ (by decide)⟩⟩
    | getLoggedData station start stop =>
      exact ⟨_, _, fun s => exec_getLoggedData s station start stop,
        fun _ => ⟨_, frameBuild_payload _ _ (by simp)⟩⟩
    | _ => cases wire
  · cases i with
    | legacyId text => exact ⟨_, _, fun s => exec_legacyId s text, fun _ => ⟨_, rfl⟩⟩
    | legacyVi text param => exact ⟨_, _, fun s => exec_legacyVi s text param, fun _ => ⟨_, rfl⟩⟩
    | _ => cases line

theorem not_canSend (h : s.link = .dropped ∨ (s.link = .closed ∧ s.reachable = false)) :
    ¬ CanSend s := by
  obtain dropped | ⟨closed, unreachable⟩ := h
  · exact not_canSend_dropped dropped
  · simp [CanSend, closed, unreachable]

/-- Settles O45: the four grounds in the order in which a wire command looks at them. -/
theorem wireCommandsTurnedAway : Obligations.WireCommandsTurnedAway := by
  constructor
  · intro i dialect s wire
    obtain ⟨request, k, isExchange, built⟩ := exec_wire wire
    rw [isExchange]
    refine ⟨wireExchange_busy, wireExchange_otherDialect, fun idle free same wf noLink => ?_⟩
    obtain ⟨bytes, rfl⟩ := built wf
    exact wireExchange_noLink idle free same (not_canSend noLink) bytes
  · intro s station ids idle free binary long
    rw [exec_getValues, frameBuild_payload_long _ _ (by rwa [be32s_length]),
      wireExchange_error idle free binary]

end Sys2Proof.Machine
end

section
/-! The steps of an exchange, the start of a session operation, and the last step of an exchange
(45_session.md R170 to R183, 60_exceptions.md R202, R212). -/

namespace Sys2Proof.Machine

variable {s u : State} {rest : List Event}

/-! ### The exchange -/

/-- The id as BE32 before the payload, unless it is 0 (30_encoding.md R54). -/
theorem requestData_be32 (parameterId : Word) (payload : List Byte) :
    requestData parameterId payload =
      (if parameterId = 0 then [] else be32 parameterId) ++ payload := by
  have bytes := be32_ofNat parameterId.toNat
  rw [BitVec.ofNat_toNat, BitVec.setWidth_eq] at bytes
  rw [requestData_eq, bytes]

/-- Settles O46: one operation a step, with its result and its error. -/
theorem exchangeSteps : Obligations.ExchangeSteps := by
  refine ⟨fun s rest k host => ⟨fun command parameterId payload msgData head hx hmsg hhead => ?_,
    fun request hx => ⟨fun link => ?_, fun ⟨closed, unreachable⟩ => ?_⟩, fun hx => ?_,
    fun response hx => ?_⟩, fun s rest hf ha h => ?_⟩
  · rw [← requestData_be32] at hmsg
    have isHead : head = frameHead s.stationId command msgData := hhead
    rw [step_build host hx, frameBuild, ← hmsg, frameBytes_of_head isHead]
    by_cases long : 65535 < msgData.length
    · rw [if_pos long, if_pos (show Config.lenMax < _ from long)]
      rfl
    · rw [if_neg long, if_neg (show ¬ Config.lenMax < _ from long)]
      rfl
  · rw [step_send host hx, exchangeSend_sends (s := withAgenda s rest) request k link]
    rfl
  · have failed := exchangeSend_fails (s := withAgenda s rest) request k
      (not_canSend (.inr ⟨closed, unreachable⟩))
    rw [step_send host hx, failed]
    show Host.Outcome.next { s with
      agenda := rest, link := .closed, session := none, completions := _ } = _
    rw [← closed]
    rfl
  · rw [step_receive host hx]
    rfl
  · rw [step_validate host hx]
    by_cases wellFormed : wellFormedFrame response = true
    · rw [frameValidate_ok wellFormed, if_pos wellFormed]
      rfl
    · rw [frameValidate_decodeError wellFormed, if_neg wellFormed]
      rfl
  · have taken : step s = .next (hostTurn (withAgenda s rest)) := step_event hf ha
    obtain waits | free := h
    · rw [taken, hostTurn_rxWait (s := withAgenda s rest) waits]
      rfl
    · rw [taken, hostTurn_none (s := withAgenda s rest) free]
      rfl

/-! ### Calls -/

section
variable {op : SessionOp} (hf : s.framer = none) (ha : s.agenda = .host (.call op) :: rest)
include hf ha

theorem step_call : step s = .next (callSession op (withAgenda s rest)) := step_event hf ha

theorem step_call_busy (busy : Busy s) :
    step s = .next { s with agenda := rest, completions := s.completions ++ [.refused] } :=
  (step_call hf ha).trans (congrArg Host.Outcome.next (if_pos busy))

/-- With nothing in progress the call is what its operation does. -/
theorem step_call_free {next : State} (idle : s.phase = .idle) (free : s.session = none)
    (called : callSession op (withAgenda s rest) =
      if Busy (withAgenda s rest) then complete .refused (withAgenda s rest) else next) :
    step s = .next next := by
  rw [step_call hf ha, called, if_neg (not_busy (s := withAgenda s rest) idle free)]

end

theorem binaryOnly_binary {next : State} (binary : s.dialect = .binary) :
    binaryOnly s next = next := by
  rw [binaryOnly, binary]

theorem binaryOnly_legacy {next : State} (legacy : s.dialect = .legacy) :
    binaryOnly s next = complete (.err .unsupportedOperation) s := by
  rw [binaryOnly, legacy]

theorem callIdentify_binary (binary : s.dialect = .binary) :
    callIdentify s = engage identityStage .identifyFirst s := by
  rw [callIdentify, binary]

theorem callIdentify_legacy (legacy : s.dialect = .legacy) :
    callIdentify s = engage (.send (idRequest s)) .text s := by
  rw [callIdentify, legacy]

theorem callGetValues_binary (ids : List Word) (binary : s.dialect = .binary) :
    callGetValues ids s = engage (valuesStage ids) (.values ids) s := by
  rw [callGetValues, binary]

theorem callGetValues_legacy (ids : List Word) (legacy : s.dialect = .legacy) :
    callGetValues ids s = legacyValues ids [] s := by
  rw [callGetValues, legacy]

theorem callGetState_binary (binary : s.dialect = .binary) :
    callGetState s = engage (valuesStage [Config.paramOperatingState]) .operatingState s := by
  rw [callGetState, binary]

theorem callGetState_legacy (legacy : s.dialect = .legacy) :
    callGetState s =
      engage (.send (viRequest Config.voltageInputParam.val s)) .operatingStateText s := by
  rw [callGetState, legacy]

/-- The request for the operating state: parameter 4035 (R178). -/
theorem valuesStage_operatingState :
    valuesStage [Config.paramOperatingState] = .build 4 0 [0, 0, 0x0F, 0xC3] := by decide

/-- The request for a target state: its code as the value of parameter 4035 (R180). -/
theorem setStage_target {target : TargetState} {code : Byte}
    (h : (target, code) ∈
      ([(.normal, 0), (.zeroCheck, 1), (.spanCheck, 2)] : List (TargetState × Byte))) :
    setStage Config.paramOperatingState target.code = .build 5 4035 [0, 0, 0, code] := by
  simp only [List.mem_cons, Prod.mk.injEq, List.not_mem_nil, or_false] at h
  obtain ⟨rfl, rfl⟩ | ⟨rfl, rfl⟩ | ⟨rfl, rfl⟩ := h <;> decide

/-- Settles O47: a busy session refuses; with nothing in progress the operation begins its
exchange. -/
theorem sessionCallsBeginTheirExchange : Obligations.SessionCallsBeginTheirExchange := by
  refine fun s rest op hf ha => ⟨step_call_busy hf ha,
    fun command parameterId payload k idle free binary h => ?_⟩
  have only {next : State} : binaryOnly (withAgenda s rest) next = next := binaryOnly_binary binary
  obtain ⟨id, value, rfl, rfl, rfl, rfl, rfl⟩ | ⟨rfl, rfl, rfl, rfl, rfl⟩ |
    ⟨rfl, rfl, rfl, rfl, rfl⟩ | ⟨target, code, hcode, rfl, rfl, rfl, rfl, rfl⟩ := h
  · have called : step s = .next (callSetValue parameterId value (withAgenda s rest)) :=
      step_call_free hf ha idle free rfl
    rw [called, callSetValue, only]
    rfl
  · have called : step s = .next (callGetLogConfig (withAgenda s rest)) :=
      step_call_free hf ha idle free rfl
    rw [called, callGetLogConfig, only]
    rfl
  · have called : step s = .next (callGetState (withAgenda s rest)) :=
      step_call_free hf ha idle free rfl
    rw [called, callGetState_binary (s := withAgenda s rest) binary, valuesStage_operatingState]
    rfl
  · have called : step s = .next (callSetState target (withAgenda s rest)) :=
      step_call_free hf ha idle free rfl
    rw [called, callSetState, only, setStage_target hcode]
    rfl

/-- Settles O49: each of the four looks at the dialect before anything else. -/
theorem unsupportedInLegacy : Obligations.UnsupportedInLegacy := by
  intro s op rest hf ha idle free legacy unsupported
  cases op with
  | setParameterValue | getLoggingConfiguration | getLoggedData | setOperatingState =>
    exact (step_call_free hf ha idle free rfl).trans
      (congrArg Host.Outcome.next (binaryOnly_legacy (s := withAgenda s rest) legacy))
  | identify | getParameterValues | getOperatingState => cases unsupported

/-! ### The last step of an exchange -/

theorem withInts_ok {response : List Byte} {ints : List Int} (k : List Int → State)
    (decoded : respDecode Config.hw response = .ok ints) : withInts response u k = k ints := by
  rw [withInts, decoded]

theorem withInts_error {response : List Byte} {e : Err} (k : List Int → State)
    (failed : respDecode Config.hw response = .error e) :
    withInts response u k = complete (.err e) u := by
  rw [withInts, failed]

/-- Where the integers end the exchange, its outcome is RESP_DECODE's result or error. -/
theorem withInts_complete (response : List Byte) (wrap : List Int → Value) (u : State) :
    withInts response u (fun ints => complete (.ok (wrap ints)) u) =
      complete (.ofResult wrap (respDecode Config.hw response)) u := by
  cases decoded : respDecode Config.hw response with
  | ok ints => rw [withInts_ok _ decoded]; rfl
  | error e => rw [withInts_error _ decoded]; rfl

/-- A last step that ends the exchange with an outcome. -/
theorem step_decode_complete {k : Await} {response : List Byte} {c : Completion}
    (host : HostIsNext s rest) (hx : s.session = some ⟨.decode response, k⟩)
    (ended : ∀ u, resume k response u = complete c u) :
    step s = .next { s with
      agenda := rest, session := none, completions := s.completions ++ [c] } := by
  rw [step_decode host hx, ended]
  rfl

/-- A last step that begins the next exchange of the operation. -/
theorem step_decode_engage {k k' : Await} {response : List Byte} {stage : Stage}
    (host : HostIsNext s rest) (hx : s.session = some ⟨.decode response, k⟩)
    (goesOn : ∀ u : State, u.stationId = s.stationId → resume k response u = engage stage k' u) :
    step s = .next { s with agenda := rest, session := some ⟨stage, k'⟩ } := by
  rw [step_decode host hx, goesOn (disengage (withAgenda s rest)) rfl]
  rfl

theorem responseStage_binary (binary : s.dialect = .binary) (response : List Byte) :
    responseStage s response =
      if s.validates = true then .validate response else .decode response := by
  simp [responseStage, binary]

theorem responseStage_legacy (legacy : s.dialect = .legacy) (response : List Byte) :
    responseStage s response = .decode response := by
  simp [responseStage, legacy]

/-- Settles O48: the chunk with the terminator gives the exchange its response, and the last step is
the outcome of its decoder. -/
theorem responseIsDecoded : Obligations.ResponseIsDecoded := by
  constructor
  · intro s size rest k response blanks hf ha waits waiting nonempty fits parts
    have received := step_chunk_response (k := k) hf ha waits rfl nonempty fits
    rw [parts] at received
    constructor
    · rintro binary rfl eot
      have done : terminated s.dialect (response ++ []) = true := by
        rw [List.append_nil, binary]
        exact beq_iff_eq.mpr eot
      have whole : delivered Config.hw s.dialect (response ++ []) = response := by
        rw [List.append_nil, binary]
        rfl
      rw [received done waiting, whole, responseStage_binary binary]
    · intro legacy lineEnd white dark
      have done : terminated s.dialect (response ++ blanks) = true := by
        rw [legacy]
        exact (terminated_legacy_iff _).mpr lineEnd
      have trimmed : delivered Config.hw s.dialect (response ++ blanks) = response := by
        rw [legacy]
        exact rtrim_append Config.hw white dark
      rw [received done waiting, trimmed, responseStage_legacy legacy]
  · intro s rest k response c host hx h
    refine step_decode_complete host hx fun u => ?_
    obtain ⟨rfl, rfl⟩ | ⟨rfl, rfl⟩ | ⟨rfl, rfl⟩ | ⟨rfl, rfl⟩ | ⟨hk, e, failed, rfl⟩ := h
    · exact withInts_complete response .ints u
    · rfl
    · exact withInts_complete response (fun ints => .paramIds (ints.map (BitVec.ofInt 32))) u
    · rfl
    · cases k with
      | identifyFirst | identifySecond | values | operatingState | setStateReply | setStatePoll =>
        exact withInts_error _ failed
      | words | records | text | valuesText | logConfig | operatingStateText => cases hk

end Sys2Proof.Machine
end

section
/-! The session operations one by one: identify, the values in both dialects, the logged data, the
operating state and its change (45_session.md R172 to R180). -/

namespace Sys2Proof.Machine

variable {s u : State} {rest : List Event}

/-! ### identify -/

/-- Settles O50: the first response begins the same request again, the second ends the operation. -/
theorem identifySendsTwice : Obligations.IdentifySendsTwice := by
  constructor
  · intro s rest hf idle free ha
    have called : step s = .next (callIdentify (withAgenda s rest)) :=
      step_call_free hf ha idle free rfl
    refine ⟨fun binary => ?_, fun legacy => ?_⟩
    · rw [called, callIdentify_binary (s := withAgenda s rest) binary]
      rfl
    · rw [called, callIdentify_legacy (s := withAgenda s rest) legacy]
      rfl
  · intro s rest response ints host decoded
    refine ⟨fun hx => ?_, fun first hx => ?_⟩
    · exact step_decode_engage host hx fun u _ => withInts_ok _ decoded
    · exact step_decode_complete host hx fun u => withInts_ok _ decoded

/-! ### The values of parameters -/

/-- Settles O51: all ids go in one request, and its integers are paired with them. -/
theorem getValuesBatchesIds : Obligations.GetValuesBatchesIds := by
  constructor
  · intro s rest ids hf binary ha idle free
    have called : step s = .next (callGetValues ids (withAgenda s rest)) :=
      step_call_free hf ha idle free rfl
    rw [called, callGetValues_binary (s := withAgenda s rest) ids binary]
    rfl
  · intro s rest ids response ints host hx decoded
    exact step_decode_complete host hx fun u => withInts_ok _ decoded

/-- The line of a VI command of the session, byte by byte. -/
theorem viRequest_eq {param : Nat} (two : param < 100) (s : State) :
    viRequest param s = [0x56, 0x49] ++ Config.stationIdText s.stationId ++
      [BitVec.ofNat 8 (0x30 + param / 10), BitVec.ofNat 8 (0x30 + param % 10), 0x0D] := by
  have digits := viLine_eq (Config.stationIdText s.stationId) (tens := param / 10)
    (units := param % 10) (by omega) (by omega)
  rwa [Nat.div_add_mod] at digits

/-- An id of 100 or more is given the empty string, and nothing is sent for it. -/
theorem legacyValues_append {large : List Word} (h : ∀ id ∈ large, 100 ≤ id.toNat)
    (ids : List Word) (got : List (Word × List Byte)) (u : State) :
    legacyValues (large ++ ids) got u =
      legacyValues ids (got ++ large.map fun id => (id, [])) u := by
  induction large generalizing got with
  | nil => rw [List.map_nil, List.append_nil, List.nil_append]
  | cons id large ih =>
    obtain ⟨first, others⟩ := List.forall_mem_cons.mp h
    have skipped : ¬ id.toNat < Config.legacyIdLimit := Nat.not_lt.mpr first
    rw [List.cons_append, legacyValues, if_neg skipped, ih others, List.map_cons,
      List.append_assoc, List.singleton_append]

theorem legacyValues_all {large : List Word} (h : ∀ id ∈ large, 100 ≤ id.toNat)
    (got : List (Word × List Byte)) (u : State) :
    legacyValues large got u =
      complete (.ok (.texts (got ++ large.map fun id => (id, [])))) u := by
  have all := legacyValues_append h [] got u
  rwa [List.append_nil] at all

/-- The first id below 100 is asked for, and the ids after it wait. -/
theorem legacyValues_next {large : List Word} (h : ∀ id ∈ large, 100 ≤ id.toNat) {id : Word}
    (small : id.toNat < 100) (ids : List Word) (got : List (Word × List Byte)) (u : State) :
    legacyValues (large ++ id :: ids) got u =
      engage (.send ([0x56, 0x49] ++ Config.stationIdText u.stationId ++
          [BitVec.ofNat 8 (0x30 + id.toNat / 10), BitVec.ofNat 8 (0x30 + id.toNat % 10), 0x0D]))
        (.valuesText id ids (got ++ large.map fun id => (id, []))) u := by
  rw [legacyValues_append h, legacyValues, if_pos (show _ < Config.legacyIdLimit from small),
    viRequest_eq small]

/-- Settles O52: from the call and after a response the ids are gone through in the same way. -/
theorem legacyValuesSkipLargeIds : Obligations.LegacyValuesSkipLargeIds := by
  intro s rest large hlarge
  constructor
  · intro hf idle free legacy
    refine ⟨fun ha => ?_, fun id ids small ha => ?_⟩
    · have called : step s = .next (callGetValues large (withAgenda s rest)) :=
        step_call_free hf ha idle free rfl
      rw [called, callGetValues_legacy (s := withAgenda s rest) _ legacy, legacyValues_all hlarge]
      rfl
    · have called : step s = .next (callGetValues (large ++ id :: ids) (withAgenda s rest)) :=
        step_call_free hf ha idle free rfl
      rw [called, callGetValues_legacy (s := withAgenda s rest) _ legacy,
        legacyValues_next hlarge small]
      rfl
  · intro asked line got host
    refine ⟨fun hx => ?_, fun id ids small hx => ?_⟩
    · exact step_decode_complete host hx fun u => legacyValues_all hlarge _ u
    · exact step_decode_engage host hx fun u station =>
        station ▸ legacyValues_next hlarge small ids _ u

/-! ### The logged data -/

theorem callGetLoggedData_absent {start stop : Option DateTime} (binary : s.dialect = .binary)
    (absent : start = none ∨ stop = none) :
    callGetLoggedData start stop s = complete (.err .invalidArgument) s := by
  refine (binaryOnly_binary binary).trans ?_
  obtain rfl | rfl := absent
  · rfl
  · cases start <;> rfl

theorem callGetLoggedData_present (start stop : DateTime) (binary : s.dialect = .binary) :
    callGetLoggedData (some start) (some stop) s = engage (.encodeStart start stop) .records s :=
  binaryOnly_binary binary

/-- Settles O53: the arguments are looked at in the call, each timestamp in a step of its own. -/
theorem getLoggedDataRequest : Obligations.GetLoggedDataRequest := by
  constructor
  · intro s rest start stop hf ha idle free binary
    have called : step s = .next (callGetLoggedData start stop (withAgenda s rest)) :=
      step_call_free hf ha idle free rfl
    refine ⟨fun absent => ?_, fun a b hstart hstop => ?_⟩
    · rw [called, callGetLoggedData_absent (s := withAgenda s rest) binary absent]
      rfl
    · rw [called, hstart, hstop, callGetLoggedData_present (s := withAgenda s rest) a b binary]
      rfl
  · intro s rest a b first host
    refine ⟨fun hx => ?_, fun hx => ?_⟩
    · rw [step_encodeStart host hx]
      refine ⟨fun e failed => ?_, fun encoded => ?_⟩
      · rw [failed]
        rfl
      · rw [encoded]
        rfl
    · rw [step_encodeStop host hx]
      refine ⟨fun e failed => ?_, fun last encoded => ?_⟩
      · rw [failed]
        rfl
      · rw [encoded]
        rfl

/-! ### The operating state -/

/-- The first integer decides: the three states, and Error for any other and for none (R178). -/
theorem binaryState_head (ints : List Int) :
    binaryState ints =
      if ints.head? = some 0 then .normal else if ints.head? = some 1 then .zeroCheck
      else if ints.head? = some 2 then .spanCheck else .error := by
  unfold binaryState
  cases ints.head? with
  | none => rfl
  | some i => simp only [Option.some_inj]

theorem binaryState_eq {ints : List Int} {st : OperatingState}
    (h0 : ints.head? = some 0 → st = .normal) (h1 : ints.head? = some 1 → st = .zeroCheck)
    (h2 : ints.head? = some 2 → st = .spanCheck)
    (other : ints.head? ∉ [some 0, some 1, some 2] → st = .error) : binaryState ints = st := by
  rw [binaryState_head]
  split
  · exact (h0 ‹_›).symm
  split
  · exact (h1 ‹_›).symm
  split
  · exact (h2 ‹_›).symm
  · exact (other (by simp [*])).symm

/-- Settles O54: the last step hands over the state of the first integer. -/
theorem binaryOperatingState : Obligations.BinaryOperatingState := by
  intro s rest ints response st host hx decoded h0 h1 h2 other
  refine step_decode_complete host hx fun u => ?_
  rw [← binaryState_eq h0 h1 h2 other]
  exact withInts_ok _ decoded

/-- The outcome of a legacy line (R179). -/
theorem ofResult_legacyState (line : List Byte) :
    Completion.ofResult .operatingState (legacyState line) =
      if line = [0x30, 0x30, 0x30] then .ok (.operatingState .normal)
      else if line = [0x30, 0x33, 0x32] then .ok (.operatingState .zeroCheck)
      else if line = [0x30, 0x31, 0x36] then .ok (.operatingState .spanCheck)
      else .err .unrecognizedState := by
  unfold legacyState
  split_ifs <;> rfl

/-- Settles O55: the query has two digits whatever its number, and the line is read in the last
step. -/
theorem legacyOperatingState : Obligations.LegacyOperatingState := by
  constructor
  · rintro s rest param hf ha idle free legacy rfl
    have called : step s = .next (callGetState (withAgenda s rest)) :=
      step_call_free hf ha idle free rfl
    rw [called, callGetState_legacy (s := withAgenda s rest) legacy,
      viRequest_eq Config.voltageInputParam.isLt]
    rfl
  · intro s rest line host hx
    rw [← ofResult_legacyState]
    exact step_decode_complete host hx fun u => rfl

/-! ### The change of the operating state -/

/-- The first integer that a requested state is reached at (R180). -/
theorem binaryState_eq_target_iff {target : TargetState} {code : Int} (ints : List Int)
    (h : (target, code) ∈
      ([(.normal, 0), (.zeroCheck, 1), (.spanCheck, 2)] : List (TargetState × Int))) :
    binaryState ints = target.state ↔ ints.head? = some code := by
  rw [binaryState_head]
  simp only [List.mem_cons, Prod.mk.injEq, List.not_mem_nil, or_false] at h
  obtain ⟨rfl, rfl⟩ | ⟨rfl, rfl⟩ | ⟨rfl, rfl⟩ := h <;> split_ifs <;> simp_all [TargetState.state]

theorem pollState_eq (target : TargetState) (left : Nat) (u : State) :
    pollState target left u =
      engage (.build 4 0 [0, 0, 0x0F, 0xC3]) (.setStatePoll target left) u := by
  rw [pollState, valuesStage_operatingState]

/-- Settles O56: a poll is done, is the last, or begins the next with one fewer left. -/
theorem pollConvergesOrTimesOut : Obligations.PollConvergesOrTimesOut := by
  intro s left rest target code ints response host decoded hcode
  refine ⟨fun hx => ?_, fun hx => ?_⟩
  · exact step_decode_engage host hx fun u _ =>
      (withInts_ok _ decoded).trans (pollState_eq target _ u)
  · have polled (u : State) : resume (.setStatePoll target left) response u =
        afterPoll target left ints u := withInts_ok _ decoded
    have reached := binaryState_eq_target_iff ints hcode
    by_cases done : ints.head? = some code
    · rw [if_pos done]
      refine step_decode_complete host hx fun u => ?_
      rw [polled, afterPoll, if_pos (reached.mpr done)]
    · rw [if_neg done]
      by_cases last : left ≤ 1
      · rw [if_pos last]
        refine step_decode_complete host hx fun u => ?_
        rw [polled, afterPoll, if_neg (mt reached.mp done), if_pos last]
      · rw [if_neg last]
        refine step_decode_engage host hx fun u _ => ?_
        rw [polled, afterPoll, if_neg (mt reached.mp done), if_neg last, pollState_eq]

end Sys2Proof.Machine
end
